-- ==== Sys2Proof/Word.lean ====
section
/-! DEFINITION. The word types of the XTS-GF128 core and their plainest arithmetic.

Every integer of the spec is unsigned (00_scope.md R15(c)), so a string of bits is a `BitVec`. -/

namespace Sys2Proof

/-- A block, and a data memory word: 128 bits, bit 127 first (00_scope.md R9, R15(b); 20_memory.md R53). -/
abbrev Block := BitVec 128

/-- A byte of a block (00_scope.md R15(f)). -/
abbrev Byte := BitVec 8

/-- A register-port word, and a command word (10_state.md R30, 30_encoding.md R71). -/
abbrev Word := BitVec 32

/-- A data memory word address as commands and the host memory port carry it: 21 bits
(30_encoding.md R73, 20_memory.md R55). -/
abbrev WordAddr := BitVec 21

/-- The number of a block register: 0 to 7, all eight legal (10_state.md R21, 30_encoding.md R75). -/
abbrev BlockReg := Fin 8

/-- A sub-key: a string of bits with its width (10_state.md R22). The width is data, so that one model
holds every key width of 00_scope.md R11. That a key register has the width of the machine's
parameter is an invariant (`Sys2Proof.Safety.KeyWidths`). -/
structure Key where
  /-- The width in bits. -/
  width : Nat
  /-- The bits, first bit first. -/
  bits : BitVec width
  deriving DecidableEq, Repr

/-- The all-zero sub-key of a width: the reset value of K1 and K2 (10_state.md R42). -/
def Key.zero (width : Nat) : Key := ⟨width, 0#width⟩

/-- `ceil(n/128)`, over the mathematical integers (00_scope.md R15(h)). -/
def ceilDiv128 (n : Nat) : Nat := (n + 127) / 128

end Sys2Proof
end

