-- ==== Sys2Proof/Syntax.lean ====
section
/-! DEFINITION. The fourteen commands of XTSC version 1 (30_encoding.md R76), one constructor for each row of
the opcode table, and the host's actions (00_scope.md R6).

Operands have the types their fields have: a register field is one of eight registers, an address is
21 bits, and every value of each is legal (30_encoding.md R75). So every term of `Instr` is a legal
command; the checks that can fail are those of `Sys2Proof.WellFormed`. -/

namespace Sys2Proof

/-- A command (30_encoding.md R76, R80: destination, sources, address). -/
inductive Instr where
  /-- `NOP` (44_data_movement_and_system.md R164). -/
  | nop
  /-- `CLRERR` (R165). -/
  | clrerr
  /-- `LDB Bd, addr` (R160). -/
  | ldb (bd : BlockReg) (addr : WordAddr)
  /-- `STB Bs, addr` (R161); the field `bd` of the word names the source. -/
  | stb (bs : BlockReg) (addr : WordAddr)
  /-- `LDKEY addr` (R163). -/
  | ldkey (addr : WordAddr)
  /-- `GFMUL Bd, Ba, Bb` (40_field_arithmetic.md R98). -/
  | gfmul (bd ba bb : BlockReg)
  /-- `FLIP Bd, Ba` (R99). -/
  | flip (bd ba : BlockReg)
  /-- `TWINIT Bd, Ba` (41_tweak_generator.md R117). -/
  | twinit (bd ba : BlockReg)
  /-- `TWADV Bd, Ba` (R118). -/
  | twadv (bd ba : BlockReg)
  /-- `TWSEEK Bd, Ba, Bb` (R119). -/
  | twseek (bd ba bb : BlockReg)
  /-- `XENC Bd, Ba, Bb` (42_block_codec.md R128). -/
  | xenc (bd ba bb : BlockReg)
  /-- `XDEC Bd, Ba, Bb` (R129). -/
  | xdec (bd ba bb : BlockReg)
  /-- `DUENC Ba` (43_data_unit_codec.md R144). -/
  | duenc (ba : BlockReg)
  /-- `DUDEC Ba` (R145). -/
  | dudec (ba : BlockReg)
  deriving DecidableEq, Repr

/-- The name of a command's row in the opcode map (30_encoding.md R76). -/
def Instr.mnemonic : Instr → String
  | .nop => "NOP"
  | .clrerr => "CLRERR"
  | .ldb _ _ => "LDB"
  | .stb _ _ => "STB"
  | .ldkey _ => "LDKEY"
  | .gfmul _ _ _ => "GFMUL"
  | .flip _ _ => "FLIP"
  | .twinit _ _ => "TWINIT"
  | .twadv _ _ => "TWADV"
  | .twseek _ _ _ => "TWSEEK"
  | .xenc _ _ _ => "XENC"
  | .xdec _ _ _ => "XDEC"
  | .duenc _ => "DUENC"
  | .dudec _ => "DUDEC"

/-- The byte offset of a register-port access. The port has an 8-bit offset bus whose two low bits are
not wired (10_state.md R30), so what it carries is the six upper bits: the byte offset is four times
this number, 0x00 to 0xFC, and a misaligned access cannot be expressed. -/
structure PortOffset where
  /-- Bits 7:2 of the byte offset. -/
  wires : BitVec 6
  deriving DecidableEq, Repr

/-- The byte offset, a multiple of 4 in 0x00 to 0xFC. -/
def PortOffset.byteOffset (o : PortOffset) : BitVec 8 := o.wires ++ 0#2

/-- What the host can do (00_scope.md R6): the two actions of the register port (10_state.md R30), the
two of the memory port (20_memory.md R55), and reset (70_reset_and_hazards.md R200). -/
inductive HostAction where
  /-- `RegWrite(off, v)`. -/
  | regWrite (off : PortOffset) (v : Word)
  /-- `RegRead(off)`. -/
  | regRead (off : PortOffset)
  /-- `HostMemWrite(a, v)`. -/
  | memWrite (a : WordAddr) (v : Block)
  /-- `HostMemRead(a)`. -/
  | memRead (a : WordAddr)
  /-- `Reset`. -/
  | reset
  deriving DecidableEq, Repr

/-- What a port returns to the host for an action: nothing, the 32 bits of a `RegRead`, or the 128 bits
of a `HostMemRead` (10_state.md R30, 20_memory.md R55). -/
inductive HostReply where
  | nothing
  | reg (v : Word)
  | mem (v : Block)
  deriving DecidableEq, Repr

end Sys2Proof
end

