-- ==== Sys2Proof/Decode.lean ====
section
/-! DEFINITION. The opcode map, the decoder and the encoder of XTSC version 1 (30_encoding.md R70 to R78). -/

namespace Sys2Proof

/-- The register named by the three bits of `w` from bit `lo` up (30_encoding.md R75). -/
def regField (w : Word) (lo : Nat) : BlockReg := (w.extractLsb' lo 3).toFin

/-- Field `bd`, bits 23:21 (30_encoding.md R72, R73). -/
def fieldBd (w : Word) : BlockReg := regField w 21

/-- Field `ba`, bits 20:18 (30_encoding.md R72). -/
def fieldBa (w : Word) : BlockReg := regField w 18

/-- Field `bb`, bits 17:15 (30_encoding.md R72). -/
def fieldBb (w : Word) : BlockReg := regField w 15

/-- Field `addr`, bits 20:0 (30_encoding.md R73). -/
def fieldAddr (w : Word) : WordAddr := w.extractLsb' 0 21

/-- Field `op`, bits 31:24, the opcode in every format (30_encoding.md R71). -/
def fieldOp (w : Word) : BitVec 8 := w.extractLsb' 24 8

/-- A row of the opcode map: a word `w` selects it when `(w AND mask) = match` (30_encoding.md R76). -/
structure OpcodeRow where
  mnemonic : String
  mask : Word
  pattern : Word
  /-- The command with the fields of the word. -/
  build : Word → Instr

/-- Whether a word selects a row. -/
def OpcodeRow.selects (r : OpcodeRow) (w : Word) : Bool := w &&& r.mask == r.pattern

/-- The fourteen rows of 30_encoding.md R76, in its order. -/
def opcodeMap : List OpcodeRow := [
  ⟨"NOP", 0xFFFFFFFF#32, 0x01000000#32, fun _ => .nop⟩,
  ⟨"CLRERR", 0xFFFFFFFF#32, 0x02000000#32, fun _ => .clrerr⟩,
  ⟨"LDB", 0xFF000000#32, 0x10000000#32, fun w => .ldb (fieldBd w) (fieldAddr w)⟩,
  ⟨"STB", 0xFF000000#32, 0x11000000#32, fun w => .stb (fieldBd w) (fieldAddr w)⟩,
  ⟨"LDKEY", 0xFFE00000#32, 0x12000000#32, fun w => .ldkey (fieldAddr w)⟩,
  ⟨"GFMUL", 0xFF007FFF#32, 0x20000000#32, fun w => .gfmul (fieldBd w) (fieldBa w) (fieldBb w)⟩,
  ⟨"FLIP", 0xFF03FFFF#32, 0x21000000#32, fun w => .flip (fieldBd w) (fieldBa w)⟩,
  ⟨"TWINIT", 0xFF03FFFF#32, 0x30000000#32, fun w => .twinit (fieldBd w) (fieldBa w)⟩,
  ⟨"TWADV", 0xFF03FFFF#32, 0x31000000#32, fun w => .twadv (fieldBd w) (fieldBa w)⟩,
  ⟨"TWSEEK", 0xFF007FFF#32, 0x32000000#32, fun w => .twseek (fieldBd w) (fieldBa w) (fieldBb w)⟩,
  ⟨"XENC", 0xFF007FFF#32, 0x40000000#32, fun w => .xenc (fieldBd w) (fieldBa w) (fieldBb w)⟩,
  ⟨"XDEC", 0xFF007FFF#32, 0x41000000#32, fun w => .xdec (fieldBd w) (fieldBa w) (fieldBb w)⟩,
  ⟨"DUENC", 0xFFE3FFFF#32, 0x50000000#32, fun w => .duenc (fieldBa w)⟩,
  ⟨"DUDEC", 0xFFE3FFFF#32, 0x51000000#32, fun w => .dudec (fieldBa w)⟩]

/-- Why a word is an illegal command (30_encoding.md R77). The machine raises `IllegalCommand` for
both; the names say which clause of the rule holds. -/
inductive Illegal where
  /-- R77(a): the opcode is none of the fourteen. -/
  | unlistedOpcode
  /-- R77(b), (c): a listed opcode with a must-be-zero field that is not zero. -/
  | nonZeroField
  deriving DecidableEq, Repr

/-- The decoder: the command of the row a word selects, or why there is none (30_encoding.md R70, R76,
R77). Total on all `2^32` words. -/
def decode (w : Word) : Except Illegal Instr :=
  match opcodeMap.find? (·.selects w) with
  | some r => .ok (r.build w)
  | none =>
    if opcodeMap.any (fun r => fieldOp r.pattern == fieldOp w) then .error .nonZeroField
    else .error .unlistedOpcode

/-- The three bits of a register field. -/
def regBits (r : BlockReg) : BitVec 3 := BitVec.ofNat 3 r.val

/-- A word of format R: `op`, `bd`, `ba`, `bb`, fifteen zero bits (30_encoding.md R72). -/
def encodeR (op : BitVec 8) (bd ba bb : BlockReg) : Word :=
  op ++ regBits bd ++ regBits ba ++ regBits bb ++ 0#15

/-- A word of format M: `op`, `bd`, `addr` (30_encoding.md R73). -/
def encodeM (op : BitVec 8) (bd : BlockReg) (addr : WordAddr) : Word :=
  op ++ regBits bd ++ addr

/-- A word of format Z: `op`, twenty-four zero bits (30_encoding.md R74). -/
def encodeZ (op : BitVec 8) : Word := op ++ 0#24

/-- The encoder: the one word of a command (30_encoding.md R72 to R76; an unused register field is
zero, R72). -/
def encode : Instr → Word
  | .nop => encodeZ 0x01#8
  | .clrerr => encodeZ 0x02#8
  | .ldb bd addr => encodeM 0x10#8 bd addr
  | .stb bs addr => encodeM 0x11#8 bs addr
  | .ldkey addr => encodeM 0x12#8 0 addr
  | .gfmul bd ba bb => encodeR 0x20#8 bd ba bb
  | .flip bd ba => encodeR 0x21#8 bd ba 0
  | .twinit bd ba => encodeR 0x30#8 bd ba 0
  | .twadv bd ba => encodeR 0x31#8 bd ba 0
  | .twseek bd ba bb => encodeR 0x32#8 bd ba bb
  | .xenc bd ba bb => encodeR 0x40#8 bd ba bb
  | .xdec bd ba bb => encodeR 0x41#8 bd ba bb
  | .duenc ba => encodeR 0x50#8 0 ba 0
  | .dudec ba => encodeR 0x51#8 0 ba 0

/-- The word of 32 bits whose low `nbits` bits are those of `w` and whose others are zero, bit 0 least
significant: what the host writes to CMD for a table word (30_encoding.md R71: one 32-bit word, bit 31
most significant, no byte order since it is written whole, 10_state.md R30). -/
def tableWord (nbits w : Nat) : Word := BitVec.ofNat 32 (w % 2 ^ nbits)

/-- The command the decoder reads from a word numbered as the opcode table numbers it. -/
def decodeTableWord (nbits w : Nat) : Option Instr := (decode (tableWord nbits w)).toOption

end Sys2Proof
end

