-- ==== Sys2Proof/Config.lean ====
section
/-! DEFINITION. What an implementation of the core fixes: the parameters of 00_scope.md section 4, the
cipher behind the cipher port, and the free contents of the data memory after reset. -/

namespace Sys2Proof

/-- The two open parameters the machine's registers and checks depend on (00_scope.md R11, R12). Both
are visible to the host as the halves of CONFIG (10_state.md R41), hence 16 bits each. -/
structure Params where
  /-- KW, the width of a sub-key in bits: a positive integer up to 65535 (R11). -/
  kw : BitVec 16
  /-- CBLK, the native block size of the cipher bound to the cipher port: 0 to 65535 (R12). -/
  cblk : BitVec 16
  deriving DecidableEq, Repr

/-- The cipher capability of 00_scope.md R16: `encrypt(key, block)` and `decrypt(key, block)`, total and
pure. The pure functions of the model take a cipher as an argument, so that a claim can name what it
needs of one and a test can supply one. -/
structure Cipher where
  /-- E, encrypt. -/
  encrypt : Key → Block → Block
  /-- D, decrypt. -/
  decrypt : Key → Block → Block

/-- The one named property of a cipher that rules of the spec use (00_scope.md R16): decrypting undoes
encrypting. It is assumed of no cipher; a claim that needs it has it as a hypothesis. -/
def CipherInverse (c : Cipher) : Prop := ∀ k x, c.decrypt k (c.encrypt k x) = x

namespace Config

/-- `MAXBLK = 2^20`: the most blocks of a data unit, a final partial block counted (00_scope.md R10). -/
def maxBlocks : Nat := 2 ^ 20

/-- `DMEM_AW = 21`: the data memory has `2^21` words (00_scope.md R14, 20_memory.md R51). -/
def dmemWords : Nat := 2 ^ 21

/-- The block size the core needs of its cipher: `BLK = 128` (00_scope.md R9, R12). -/
def blockBits : BitVec 16 := 128#16

/-- E of the bound cipher: OPEN (00_scope.md R13). No body, so nothing can be proved of it but what
holds of every function (log 4). -/
opaque encrypt : Key → Block → Block

/-- D of the bound cipher: OPEN (00_scope.md R13, log 4). -/
opaque decrypt : Key → Block → Block

/-- The cipher bound to the cipher port. -/
def cipher : Cipher := ⟨encrypt, decrypt⟩

/-- What a byte cell of the data memory that nothing has written since the last reset reads as
(70_reset_and_hazards.md R203): a free value for the number of resets taken so far and the cell, so
stable between resets and unknown to every proof (log 5). -/
opaque dmemAtReset : Nat → Nat → Byte

/-- DESIGN CHOICE (log 3). The parameters of the machine that `State.reset` is: KW = 128, which
00_scope.md R11 lets a model fix, and CBLK = 128, which 70_reset_and_hazards.md R202 lets a model fix.
States with every other value are states of the model too. -/
def reference : Params := ⟨128#16, 128#16⟩

end Config

end Sys2Proof
end

