-- ==== Sys2Proof/Machine/State.lean ====
section
/-! DEFINITION. The state of the core (10_state.md R20), what can stop the model, and the state after reset
(10_state.md R42). -/

namespace Sys2Proof.Machine

/-- Why the model stops with a fault. The spec has no fault: its errors are traps with effect
(60_exceptions.md R179). -/
inductive Fault where
  /-- Raised by the data memory range operations of `Sys2Proof.Machine.Operands` when they are handed
  words outside `0` to `2^21 - 1`, which 20_memory.md R52 says never happens. SAFE: no step of the
  model reaches it (log 9). -/
  | noSuchWord
  deriving DecidableEq, Repr

/-- Why the model refuses. -/
inductive Refusal where
  /-- Raised by an arm of `exec` whose instruction has no meaning yet. SAFE. No arm raises it: every
  instruction of the opcode table has its meaning. -/
  | notModelled (mnemonic : String)
  deriving DecidableEq, Repr

/-- The data memory since the last reset: the byte cells that have been written, addresses strictly
rising. Cell `16 * a + j` is byte `j` of word `a` (00_scope.md R15(f), 20_memory.md R53; log 6). A cell
that is not listed has no written value. -/
abbrev Memory := List Host.Cell

/-- The state. The first block of fields is the spec's complete list (10_state.md R20); the second is
the model's own (logs 1, 2, 3, 5). -/
structure State where
  /-- `B[0]` to `B[7]` (10_state.md R21). -/
  blocks : Vector Block 8
  /-- `K1`, the data key (R22). -/
  k1 : Key
  /-- `K2`, the tweak key (R22). -/
  k2 : Key
  /-- `KEYV`: K1 and K2 hold a loaded key (R23). -/
  keyv : Bool
  /-- `ERRCODE`: 0, or the code of the pending error (R24; 60_exceptions.md R176). -/
  errcode : BitVec 8
  /-- `ERRCMD`: the command word that raised the pending error (R24). -/
  errcmd : Word
  /-- `FATAL`: the bound cipher's block is not 128 bits (R24). -/
  fatal : Bool
  /-- `LEN`: data-unit length in bits (R35). -/
  len : Word
  /-- `SRC`: source word address of a data-unit command (R36). -/
  src : Word
  /-- `DST`: destination word address of a data-unit command (R37). -/
  dst : Word
  /-- `KLEN`: length in bits of the key material LDKEY is given (R38). -/
  klen : Word
  /-- `DMEM` (20_memory.md R51). -/
  mem : Memory
  /-- The model's own: the machine's parameters KW and CBLK, which no step changes (log 3). -/
  params : Params
  /-- The model's own: how many resets have been taken, the argument of the free contents of the data
  memory (70_reset_and_hazards.md R203; log 5). -/
  resets : Nat
  /-- The model's own: the host's actions that have not happened yet, the next one first (log 1). -/
  host : List HostAction
  /-- The model's own: what the host's last action returned (log 2). -/
  reply : HostReply
  deriving DecidableEq, Repr

namespace State

/-- The state a reset leaves (10_state.md R42, 70_reset_and_hazards.md R201, R203), of a machine with
the parameters `p`: `resets` counts this reset, `host` is what the host does next. -/
def afterReset (p : Params) (resets : Nat) (host : List HostAction) : State where
  blocks := Vector.replicate 8 0#128
  k1 := Key.zero p.kw.toNat
  k2 := Key.zero p.kw.toNat
  keyv := false
  errcode := if p.cblk = Config.blockBits then 0#8 else 3#8
  errcmd := 0#32
  fatal := p.cblk ≠ Config.blockBits
  len := 0#32
  src := 0#32
  dst := 0#32
  klen := 0#32
  mem := []
  params := p
  resets := resets
  host := host
  reply := .nothing

/-- The machine right after its first reset, the host having done nothing yet (10_state.md R42). The
parameters are DESIGN CHOICE (log 3); every spec register has the value of R42. -/
def reset : State := afterReset Config.reference 0 []

end State

end Sys2Proof.Machine
end

