-- ==== Sys2Proof/Machine/Ops.lean ====
section
/-! DEFINITION. The named operations the meanings are written over: bytes and blocks, the data memory, the
block and key registers, raising an error and leaving the error state, and reset. -/

namespace Sys2Proof.Machine

/-! ## Bytes of a block -/

/-- Byte `j` of a block: `v[127-8j : 120-8j]`, byte 0 the first (00_scope.md R15(f)). Meant for `j < 16`. -/
def byte (v : Block) (j : Nat) : Byte := v.extractLsb' (120 - 8 * j) 8

/-- The string `f 0 || f 1 || ... || f (n-1)`, `f 0` first (00_scope.md R15(d)). -/
def joinBytes (f : Nat → Byte) : (n : Nat) → BitVec (8 * n)
  | 0 => 0#0
  | n + 1 => joinBytes f n ++ f n

/-- The block with the bytes `f 0` to `f 15`. -/
def blockOfBytes (f : Nat → Byte) : Block := joinBytes f 16

/-! ## The data memory -/

namespace Memory

/-- The byte that has been written to a cell since the last reset, if one has. -/
def lookup : Memory → Nat → Option Byte
  | [], _ => none
  | (c, b) :: m, a => if a = c then some b else lookup m a

/-- Write a cell, keeping the addresses strictly rising. -/
def store : Memory → Nat → Byte → Memory
  | [], a, v => [(a, v)]
  | (c, b) :: m, a, v =>
    if a < c then (a, v) :: (c, b) :: m
    else if a = c then (a, v) :: m
    else (c, b) :: store m a v

/-- Write cells `a`, `a+1`, ... with the bytes `f j`, `f (j+1)`, ..., `n` of them. -/
def storeBytes (f : Nat → Byte) : (n : Nat) → (j : Nat) → Memory → Nat → Memory
  | 0, _, m, _ => m
  | n + 1, j, m, a => storeBytes f n (j + 1) (store m a (f j)) (a + 1)

/-- Write word `a`: byte `j` of the block goes to cell `16 * a + j` (00_scope.md R15(f), 20_memory.md
R53; log 6). -/
def storeWord (m : Memory) (a : Nat) (v : Block) : Memory := storeBytes (byte v) 16 0 m (16 * a)

/-- The addresses rise strictly from `lo` up. -/
def rising : Nat → Memory → Bool
  | _, [] => true
  | lo, (c, _) :: m => lo ≤ c && rising (c + 1) m

/-- The canonical form: addresses strictly rising, and every listed cell exists (20_memory.md R51:
`2^21` words of sixteen bytes). An unlisted cell has no written value, so no entry can equal what an
unlisted cell holds. -/
def wf (m : Memory) : Bool := rising 0 m && m.all (fun c => c.1 < 16 * Config.dmemWords)

end Memory

namespace State

/-- What a byte cell of the data memory reads as: the byte written last, and for a cell nothing has
written since the last reset a free value (70_reset_and_hazards.md R203: some value, the same at every
read until the next reset; log 5). -/
def dmemByte (s : State) (c : Nat) : Byte := (s.mem.lookup c).getD (Config.dmemAtReset s.resets c)

/-- `DMEM[a]` (20_memory.md R51, R53): the block whose byte `j` is cell `16 * a + j`. -/
def dmemWord (s : State) (a : Nat) : Block := blockOfBytes (fun j => s.dmemByte (16 * a + j))

/-- `MemRead(a)`, for `0 ≤ a < 2^21` (20_memory.md R52); nothing for an address that does not exist. -/
def memRead (s : State) (a : Nat) : Option Block :=
  if a < Config.dmemWords then some (s.dmemWord a) else none

/-- `MemWrite(a, v)`, for `0 ≤ a < 2^21` (20_memory.md R52); nothing for an address that does not exist. -/
def memWrite (s : State) (a : Nat) (v : Block) : Option State :=
  if a < Config.dmemWords then some { s with mem := s.mem.storeWord a v } else none

/-! ## Registers -/

/-- `B[i]` (00_scope.md R17(a), 10_state.md R21). -/
def readB (s : State) (r : BlockReg) : Block := s.blocks[r]

/-- `B[i] <- v` (00_scope.md R17(a), 10_state.md R21: none is hardwired). -/
def writeB (s : State) (r : BlockReg) (v : Block) : State := { s with blocks := s.blocks.set r v }

/-- The key registers are written both together, and KEYV is set (10_state.md R22, R23). -/
def loadKeys (s : State) (key1 key2 : Key) : State := { s with k1 := key1, k2 := key2, keyv := true }

end State

/-! ## Errors -/

/-- The errors of 60_exceptions.md R176. -/
inductive ErrorName where
  | invalidLength
  | invalidKeyMaterial
  | unsupportedBlockSize
  | illegalCommand
  | noKey
  | addrRange
  | overlap
  deriving DecidableEq, Repr

/-- The code of an error (60_exceptions.md R176). -/
def ErrorName.code : ErrorName → BitVec 8
  | .invalidLength => 1#8
  | .invalidKeyMaterial => 2#8
  | .unsupportedBlockSize => 3#8
  | .illegalCommand => 4#8
  | .noKey => 5#8
  | .addrRange => 6#8
  | .overlap => 7#8

/-- `raise X(w)`, the one way an error is taken: ERRCODE and ERRCMD are written, nothing else changes
(60_exceptions.md R179). There is no vector, saved pc, mode or status. -/
def raise (e : ErrorName) (w : Word) (s : State) : State := { s with errcode := e.code, errcmd := w }

/-- The return from an error: ERRCODE and ERRCMD become 0 and nothing else changes, unless the core is
FATAL (60_exceptions.md R181, R182; 44_data_movement_and_system.md R165). -/
def leaveError (s : State) : State := if s.fatal then s else { s with errcode := 0#8, errcmd := 0#32 }

/-! ## Reset -/

/-- The host action `Reset` (70_reset_and_hazards.md R200, R201): every piece of the core's state takes
its reset value, FATAL is computed again, and the data memory is unspecified anew (R203). What the host
does next is the host's, not the core's. -/
def resetCore (s : State) : State := State.afterReset s.params (s.resets + 1) s.host

end Sys2Proof.Machine
end

