-- ==== Sys2Proof/Machine/Flags.lean ====
section
/-! DEFINITION. The flags (10_state.md R23, R24) and the views of them the host reads (R33, R34, R41). The core
has no arithmetic condition codes: no command sets or tests a zero, carry, overflow or sign flag (R23). -/

namespace Sys2Proof.Machine

namespace State

/-- The view ERR of STATUS: 1 when ERRCODE is not 0 (10_state.md R33). -/
def err (s : State) : Bool := s.errcode ≠ 0#8

/-- STATUS (10_state.md R33): bit 0 KEYV, bit 1 ERR, bit 2 FATAL, bits 7:3 zero, bits 15:8 ERRCODE, bits
31:16 zero. -/
def status (s : State) : Word :=
  0#16 ++ s.errcode ++ 0#5 ++ BitVec.ofBool s.fatal ++ BitVec.ofBool s.err ++ BitVec.ofBool s.keyv

/-- CONFIG (10_state.md R41): bits 31:16 CBLK, bits 15:0 KW. -/
def config (s : State) : Word := s.params.cblk ++ s.params.kw

/-- KW as a number of bits (00_scope.md R11). -/
def kw (s : State) : Nat := s.params.kw.toNat

end State

/-- The check of the keyed commands, made before anything else they do: `NoKey` when KEYV is 0
(10_state.md R23, 60_exceptions.md R177(e)). -/
def withKey (w : Word) (s : State) (run : State → Host.Outcome State Fault Refusal) :
    Host.Outcome State Fault Refusal :=
  if s.keyv then run s else .next (raise .noKey w s)

end Sys2Proof.Machine
end

