-- ==== Sys2Proof/Machine/Operands.lean ====
section
/-! DEFINITION. The operand forms (30_encoding.md R75, 44_data_movement_and_system.md R167): block registers
are read and written by `State.readB` and `State.writeB`; a data memory operand is one word at an absolute
address, or a run of words, either from an absolute address (LDKEY) or from a base register (DUENC, DUDEC).
No mode changes its base, and every transfer is one whole word. -/

namespace Sys2Proof.Machine

/-- The effective address of the absolute mode: `uint(addr)`, zero-extended, never scaled
(30_encoding.md R75, 44_data_movement_and_system.md R167(a)). -/
def absoluteAddress (addr : WordAddr) : Nat := addr.toNat

/-- `SA = uint(SRC)`, the base of a data-unit command's input (44_data_movement_and_system.md R167(b),
43_data_unit_codec.md R143). -/
def State.sourceAddress (s : State) : Nat := s.src.toNat

/-- `DA = uint(DST)`, the base of a data-unit command's output (R167(b), R143). -/
def State.destAddress (s : State) : Nat := s.dst.toNat

/-- `n = uint(LEN)`, the length in bits (10_state.md R35, 43_data_unit_codec.md R143). -/
def State.unitBits (s : State) : Nat := s.len.toNat

/-- `nblk = ceil(n/128)` (43_data_unit_codec.md R142, R143). -/
def State.unitBlocks (s : State) : Nat := ceilDiv128 s.unitBits

namespace State

/-- Words `a`, `a+1`, ..., `n` of them, in order (43_data_unit_codec.md R146,
44_data_movement_and_system.md R163). -/
def readRange (s : State) : (a n : Nat) → Option (List Block)
  | _, 0 => some []
  | a, n + 1 => (s.memRead a).bind fun v => (s.readRange (a + 1) n).map (v :: ·)

/-- Write the blocks at words `a`, `a+1`, ..., in order (43_data_unit_codec.md R146). -/
def writeRange (s : State) : (a : Nat) → List Block → Option State
  | _, [] => some s
  | a, v :: vs => (s.memWrite a v).bind fun t => t.writeRange (a + 1) vs

end State

/-- The outcome of an operation on the data memory: its next state, or the guard of 20_memory.md R52. -/
def orNoSuchWord : Option State → Host.Outcome State Fault Refusal
  | some s => .next s
  | none => .fault .noSuchWord

end Sys2Proof.Machine
end

