-- ==== Sys2Proof/Machine/DataMovement.lean ====
section
/-! DEFINITION. Loads, stores and the key (44_data_movement_and_system.md): LDB, STB and LDKEY. -/

namespace Sys2Proof.Machine

/-- LDB (R160): `B[bd] <- MemRead(uint(addr))`. Every 21-bit address is in range, so it has no error. -/
def execLdb (bd : BlockReg) (addr : WordAddr) (s : State) : Host.Outcome State Fault Refusal :=
  orNoSuchWord ((s.memRead (absoluteAddress addr)).map fun v => s.writeB bd v)

/-- STB (R161): `MemWrite(uint(addr), B[bs])`. -/
def execStb (bs : BlockReg) (addr : WordAddr) (s : State) : Host.Outcome State Fault Refusal :=
  orNoSuchWord (s.memWrite (absoluteAddress addr) (s.readB bs))

/-- `nkw = ceil(2*KW/128)`: how many words the key material occupies (R162). -/
def State.keyWords (s : State) : Nat := ceilDiv128 (2 * s.kw)

/-- `G = DMEM[A] || DMEM[A+1] || ...`, one string of 128 bits a word, first bit first (R162). -/
def keyMaterial : (ws : List Block) → BitVec (128 * ws.length)
  | [] => 0#0
  | w :: ws => (w ++ keyMaterial ws).cast (by rw [List.length_cons]; omega)

/-- `K1 = G[128*nkw-1 : 128*nkw-KW]`: the first KW bits of the key material (R162). -/
def firstSubKey (kw : Nat) (ws : List Block) : Key :=
  ⟨kw, (keyMaterial ws).extractLsb' (128 * ws.length - kw) kw⟩

/-- `K2 = G[128*nkw-KW-1 : 128*nkw-2*KW]`: the next KW bits (R162). -/
def secondSubKey (kw : Nat) (ws : List Block) : Key :=
  ⟨kw, (keyMaterial ws).extractLsb' (128 * ws.length - 2 * kw) kw⟩

/-- LDKEY (R163): `InvalidKeyMaterial` unless KLEN is 2*KW, then `AddrRange` past the end of the data
memory; else both sub-keys are loaded and KEYV is set. -/
def execLdkey (addr : WordAddr) (s : State) : Host.Outcome State Fault Refusal :=
  if s.klen.toNat ≠ 2 * s.kw then .next (raise .invalidKeyMaterial (encode (.ldkey addr)) s)
  else if absoluteAddress addr + s.keyWords > Config.dmemWords then
    .next (raise .addrRange (encode (.ldkey addr)) s)
  else
    orNoSuchWord ((s.readRange (absoluteAddress addr) s.keyWords).map fun ws =>
      s.loadKeys (firstSubKey s.kw ws) (secondSubKey s.kw ws))

end Sys2Proof.Machine
end

