-- ==== Sys2Proof/Machine/BlockCodec.lean ====
section
/-! DEFINITION. BlockCodec (42_block_codec.md): the XOR, cipher, XOR envelope, and the commands XENC and XDEC. -/

namespace Sys2Proof.Machine

/-- `encryptBlock(K1, t, P) = E(K1, P ^ t) ^ t`, with no flip (42_block_codec.md R125; 90_conflicts.md C3). -/
def encryptBlock (c : Cipher) (key1 : Key) (t p : Block) : Block := c.encrypt key1 (p ^^^ t) ^^^ t

/-- `decryptBlock(K1, t, C) = D(K1, C ^ t) ^ t` (R126). -/
def decryptBlock (c : Cipher) (key1 : Key) (t x : Block) : Block := c.decrypt key1 (x ^^^ t) ^^^ t

/-- XENC (R128): `NoKey` when KEYV is 0, else `B[bd] <- encryptBlock(K1, B[bb], B[ba])`. -/
def execXenc (bd ba bb : BlockReg) (s : State) : Host.Outcome State Fault Refusal :=
  withKey (encode (.xenc bd ba bb)) s fun s =>
    .next (s.writeB bd (encryptBlock Config.cipher s.k1 (s.readB bb) (s.readB ba)))

/-- XDEC (R129): `NoKey` when KEYV is 0, else `B[bd] <- decryptBlock(K1, B[bb], B[ba])`. -/
def execXdec (bd ba bb : BlockReg) (s : State) : Host.Outcome State Fault Refusal :=
  withKey (encode (.xdec bd ba bb)) s fun s =>
    .next (s.writeB bd (decryptBlock Config.cipher s.k1 (s.readB bb) (s.readB ba)))

end Sys2Proof.Machine
end

