-- ==== Sys2Proof/Machine/FieldArithmetic.lean ====
section
/-! DEFINITION. FieldArithmetic (40_field_arithmetic.md): the byte flip, the multiplier in GF(2^128), and the
commands GFMUL and FLIP. -/

namespace Sys2Proof.Machine

/-- `flipEndian(v)`: the sixteen bytes in reverse order, the bits inside a byte in their own
(40_field_arithmetic.md R92). -/
def flipEndian (v : Block) : Block := blockOfBytes (fun j => byte v (15 - j))

/-- `RED`: x^7 + x^2 + x + 1, what x^128 reduces to (R94). -/
def RED : Block := 0x87#128

/-- `alpha`, the field element x (R93). -/
def alpha : Block := 2#128

/-- `one`, the multiplicative identity (R93). -/
def one : Block := 1#128

/-- One step of the loop of R94 on `v`: times x, dropping x^128, then reducing by it. -/
def timesX (v : Block) : Block := if v.getLsbD 127 then (v <<< 1) ^^^ RED else v <<< 1

/-- The loop of R94 with `n` rounds to go, the next one for bit `i` of `b`. -/
def multiplyLoop (b : Block) : (n i : Nat) → (z v : Block) → Block
  | 0, _, z, _ => z
  | n + 1, i, z, v => multiplyLoop b n (i + 1) (if b.getLsbD i then z ^^^ v else z) (timesX v)

/-- `multiply(a, b)`: the product of the polynomials of `a` and `b` modulo x^128 + x^7 + x^2 + x + 1, bit
`i` the coefficient of x^i (R91, R94), in the bit-serial form R94 gives. -/
def multiply (a b : Block) : Block := multiplyLoop b 128 0 0#128 a

/-- GFMUL (R98): `B[bd] <- multiply(B[ba], B[bb])`. No flip, no key, no error of its own. -/
def execGfmul (bd ba bb : BlockReg) (s : State) : Host.Outcome State Fault Refusal :=
  .next (s.writeB bd (multiply (s.readB ba) (s.readB bb)))

/-- FLIP (R99): `B[bd] <- flipEndian(B[ba])`. No key, no error of its own. -/
def execFlip (bd ba : BlockReg) (s : State) : Host.Outcome State Fault Refusal :=
  .next (s.writeB bd (flipEndian (s.readB ba)))

end Sys2Proof.Machine
end

