-- ==== Sys2Proof/Machine/TweakGenerator.lean ====
section
/-! DEFINITION. TweakGenerator (41_tweak_generator.md): the first tweak, the next tweak, seeking, and the
commands TWINIT, TWADV and TWSEEK. -/

namespace Sys2Proof.Machine

/-- `iv(s)`: the sequence number as a little-endian block (41_tweak_generator.md R110). -/
def iv (seq : Block) : Block := flipEndian seq

/-- `tweak0(K2, s) = E(K2, iv(s))`, in the standard convention (R111). -/
def tweak0 (c : Cipher) (key2 : Key) (seq : Block) : Block := c.encrypt key2 (iv seq)

/-- `advance(t) = flipEndian(multiply(flipEndian(t), alpha))` (R112). -/
def advance (t : Block) : Block := flipEndian (multiply (flipEndian t) alpha)

/-- The tweak `i` positions after `t`, by advancing `i` times (R113). -/
def tweakAfter (t : Block) : Nat → Block
  | 0 => t
  | i + 1 => advance (tweakAfter t i)

/-- `tweak(K2, s, i)` (R113). -/
def tweak (c : Cipher) (key2 : Key) (seq : Block) (i : Nat) : Block := tweakAfter (tweak0 c key2 seq) i

/-- `alphaPow(i)` (R114), for every `i`, by its own recursion. -/
def alphaPow : Nat → Block
  | 0 => one
  | i + 1 => multiply (alphaPow i) alpha

/-- `seek(t, i)` (R114). -/
def seek (t : Block) (i : Nat) : Block := flipEndian (multiply (flipEndian t) (alphaPow i))

/-- The power of alpha whose exponent is the first `n` bits of `i`, by square and multiply: one squaring
a bit, and a multiplication by alpha where the bit is 1. -/
def alphaPowLead (i : Block) : Nat → Block
  | 0 => one
  | n + 1 =>
    if i.getLsbD (127 - n) then multiply (multiply (alphaPowLead i n) (alphaPowLead i n)) alpha
    else multiply (alphaPowLead i n) (alphaPowLead i n)

/-- `alphaPow(uint(i))` by square and multiply, as R114 allows: what TWSEEK computes, so that it can be
run for every one of the `2^128` distances (log 8). -/
def alphaPowOf (i : Block) : Block := alphaPowLead i 128

/-- TWINIT (R117): `NoKey` when KEYV is 0, else `B[bd] <- E(K2, flipEndian(B[ba]))`. -/
def execTwinit (bd ba : BlockReg) (s : State) : Host.Outcome State Fault Refusal :=
  withKey (encode (.twinit bd ba)) s fun s =>
    .next (s.writeB bd (tweak0 Config.cipher s.k2 (s.readB ba)))

/-- TWADV (R118): `B[bd] <- advance(B[ba])`. No key, no error of its own. -/
def execTwadv (bd ba : BlockReg) (s : State) : Host.Outcome State Fault Refusal :=
  .next (s.writeB bd (advance (s.readB ba)))

/-- TWSEEK (R119): `B[bd] <- seek(B[ba], uint(B[bb]))`, all 128 bits of the distance. No key, no error of
its own. -/
def execTwseek (bd ba bb : BlockReg) (s : State) : Host.Outcome State Fault Refusal :=
  .next (s.writeB bd (flipEndian (multiply (flipEndian (s.readB ba)) (alphaPowOf (s.readB bb)))))

end Sys2Proof.Machine
end

