-- ==== Sys2Proof/Machine/DataUnitCodec.lean ====
section
/-! DEFINITION. DataUnitCodec (43_data_unit_codec.md): whole data units with ciphertext stealing as pure
functions, and the commands DUENC and DUDEC that apply them to the data memory. -/

namespace Sys2Proof.Machine

/-- A bit string of `128 * full.length + r` bits, first bit first: the full blocks `X_0`, ..., `X_{M-1}`
and, when `r > 0`, the partial block `X_M`, its `r` bits left-aligned in `part` (43_data_unit_codec.md
R142; 20_memory.md R54). The low `128 - r` bits of `part` are no part of the string. -/
structure DataUnit where
  full : List Block
  r : Nat
  part : Block
  deriving DecidableEq, Repr

/-- `x[127 : 128-r] || y[127-r : 0]`: the first `r` bits of `x`, then the last `128 - r` bits of `y`
(R139 steps 3 and 4, R140 steps 3 and 4). Meant for `r ≤ 128`. -/
def splice (r : Nat) (x y : Block) : Block :=
  (x.extractLsb' (128 - r) r ++ y.extractLsb' 0 (128 - r)).setWidth 128

/-- The first `r` bits of `x`, left-aligned, the rest zero (R146: `Y_M || zeros(128-r)`). -/
def leading (r : Nat) (x : Block) : Block := splice r x 0#128

/-- The number of bits of a data unit. -/
def DataUnit.bits (u : DataUnit) : Nat := 128 * u.full.length + u.r

/-- The `n`-bit string at the front of the words `ws`; the low `128 - r` bits of a last partial word are
ignored (R146, 20_memory.md R54). -/
def DataUnit.ofWords (n : Nat) (ws : List Block) : DataUnit where
  full := ws.take (n / 128)
  r := n % 128
  part := leading (n % 128) (ws.getD (n / 128) 0#128)

/-- The words a data unit is written as: its full blocks, then its partial block left-aligned with zero
fill (R146, 20_memory.md R54). -/
def DataUnit.toWords (u : DataUnit) : List Block :=
  if u.r = 0 then u.full else u.full ++ [leading u.r u.part]

/-- Each block under its own tweak, in index order, the first under `t` and each next one under the next
tweak (R137, R138, R141; 41_tweak_generator.md R113). -/
def underTweaks (f : Block → Block → Block) : (t : Block) → List Block → List Block
  | _, [] => []
  | t, x :: xs => f t x :: underTweaks f (advance t) xs

/-- `xtsEncrypt` (R137 for `r = 0`; R139 for `1 ≤ r ≤ 127`, its six steps in order; R154: one branch). -/
def xtsEncrypt (c : Cipher) (key1 key2 : Key) (seq : Block) (u : DataUnit) : DataUnit :=
  let t0 := tweak0 c key2 seq
  if u.r = 0 then { u with full := underTweaks (encryptBlock c key1) t0 u.full }
  else
    let m := u.full.length
    -- Step 1: the full blocks before the last one.
    let front := underTweaks (encryptBlock c key1) t0 (u.full.take (m - 1))
    -- Step 2: the last full block, index M-1, under tweak M-1.
    let cc := encryptBlock c key1 (tweakAfter t0 (m - 1)) (u.full.getD (m - 1) 0#128)
    -- Steps 3 and 4: CC splits into Cm and CP, and PP = P_M || CP.
    let pp := splice u.r u.part cc
    -- Step 5: PP under tweak M.
    let combined := encryptBlock c key1 (tweakAfter t0 m) pp
    -- Step 6: the front, the combined block, then Cm.
    { u with full := front ++ [combined], part := leading u.r cc }

/-- `xtsDecrypt` (R138 for `r = 0`; R140 for `1 ≤ r ≤ 127`, its six steps in order). The first tweak is
made by encryption (R138, R148). -/
def xtsDecrypt (c : Cipher) (key1 key2 : Key) (seq : Block) (u : DataUnit) : DataUnit :=
  let t0 := tweak0 c key2 seq
  if u.r = 0 then { u with full := underTweaks (decryptBlock c key1) t0 u.full }
  else
    let m := u.full.length
    -- Step 1: the full blocks before the last one.
    let front := underTweaks (decryptBlock c key1) t0 (u.full.take (m - 1))
    -- Step 2: the combined block, at index M-1, under tweak M.
    let pp := decryptBlock c key1 (tweakAfter t0 m) (u.full.getD (m - 1) 0#128)
    -- Steps 3 and 4: PP splits into Pm and CP, and CC = Cm || CP.
    let cc := splice u.r u.part pp
    -- Step 5: CC under tweak M-1.
    let last := decryptBlock c key1 (tweakAfter t0 (m - 1)) cc
    -- Step 6: the front, the last full block, then Pm.
    { u with full := front ++ [last], part := leading u.r pp }

/-- The checks common to DUENC and DUDEC, in their order; the first that fails names the error
(R136, R143). -/
def dataUnitError (s : State) : Option ErrorName :=
  if s.unitBits < 128 ∨ s.unitBlocks > Config.maxBlocks then some .invalidLength
  else if s.keyv = false then some .noKey
  else if s.sourceAddress + s.unitBlocks > Config.dmemWords
      ∨ s.destAddress + s.unitBlocks > Config.dmemWords then some .addrRange
  else if s.sourceAddress ≠ s.destAddress ∧ s.sourceAddress < s.destAddress + s.unitBlocks
      ∧ s.destAddress < s.sourceAddress + s.unitBlocks then some .overlap
  else none

/-- A data-unit command with the word `w`: the checks of R143, then all reads, the function, all writes
(R146). -/
def dataUnitCommand (w : Word) (f : DataUnit → DataUnit) (s : State) : Host.Outcome State Fault Refusal :=
  match dataUnitError s with
  | some e => .next (raise e w s)
  | none =>
    orNoSuchWord ((s.readRange s.sourceAddress s.unitBlocks).bind fun ws =>
      s.writeRange s.destAddress (f (DataUnit.ofWords s.unitBits ws)).toWords)

/-- DUENC (R144): encrypt the data unit at SRC into DST under the sequence number `B[ba]`. -/
def execDuenc (ba : BlockReg) (s : State) : Host.Outcome State Fault Refusal :=
  dataUnitCommand (encode (.duenc ba)) (xtsEncrypt Config.cipher s.k1 s.k2 (s.readB ba)) s

/-- DUDEC (R145): decrypt the data unit at SRC into DST under the sequence number `B[ba]`. -/
def execDudec (ba : BlockReg) (s : State) : Host.Outcome State Fault Refusal :=
  dataUnitCommand (encode (.dudec ba)) (xtsDecrypt Config.cipher s.k1 s.k2 (s.readB ba)) s

end Sys2Proof.Machine
end

