-- ==== Sys2Proof/Machine/System.lean ====
section
/-! DEFINITION. The system commands NOP and CLRERR (44_data_movement_and_system.md). -/

namespace Sys2Proof.Machine

/-- NOP (R164): no state changes. -/
def execNop (s : State) : Host.Outcome State Fault Refusal := .next s

/-- CLRERR (R165): ERRCODE and ERRCMD become 0; nothing at all when the core is FATAL. -/
def execClrerr (s : State) : Host.Outcome State Fault Refusal := .next (leaveError s)

end Sys2Proof.Machine
end

