-- ==== Sys2Proof/Machine/Dispatch.lean ====
section
/-! DEFINITION. The meaning of each command: one arm for each constructor of Instr (30_encoding.md R76). An arm
is what the row's rule says; whether a word is executed at all is R70, in Sys2Proof.Machine.HostPort. -/

namespace Sys2Proof.Machine

def exec (i : Instr) (s : State) : Host.Outcome State Fault Refusal :=
  match i with
  | .nop => Sys2Proof.Machine.execNop s
  | .clrerr => Sys2Proof.Machine.execClrerr s
  | .ldb bd addr => Sys2Proof.Machine.execLdb bd addr s
  | .stb bs addr => Sys2Proof.Machine.execStb bs addr s
  | .ldkey addr => Sys2Proof.Machine.execLdkey addr s
  | .gfmul bd ba bb => Sys2Proof.Machine.execGfmul bd ba bb s
  | .flip bd ba => Sys2Proof.Machine.execFlip bd ba s
  | .twinit bd ba => Sys2Proof.Machine.execTwinit bd ba s
  | .twadv bd ba => Sys2Proof.Machine.execTwadv bd ba s
  | .twseek bd ba bb => Sys2Proof.Machine.execTwseek bd ba bb s
  | .xenc bd ba bb => Sys2Proof.Machine.execXenc bd ba bb s
  | .xdec bd ba bb => Sys2Proof.Machine.execXdec bd ba bb s
  | .duenc ba => Sys2Proof.Machine.execDuenc ba s
  | .dudec ba => Sys2Proof.Machine.execDudec ba s

end Sys2Proof.Machine
end

