-- ==== Sys2Proof/Machine/HostPort.lean ====
section
/-! DEFINITION. The host's two ports and reset, and the dispatch of a command word (10_state.md section 8,
20_memory.md section 3, 30_encoding.md R70, 70_reset_and_hazards.md R200). -/

namespace Sys2Proof.Machine

/-- What stands at a register-port offset (10_state.md R31). -/
inductive PortReg where
  | cmd
  | status
  | errcmd
  | len
  | src
  | dst
  | klen
  | config
  /-- No register: offsets 0x20 to 0xFC (R39). -/
  | empty
  deriving DecidableEq, Repr

/-- The register map (10_state.md R31, R39). -/
def portReg (o : PortOffset) : PortReg :=
  match o.byteOffset.toNat with
  | 0x00 => .cmd
  | 0x04 => .status
  | 0x08 => .errcmd
  | 0x0C => .len
  | 0x10 => .src
  | 0x14 => .dst
  | 0x18 => .klen
  | 0x1C => .config
  | _ => .empty

/-- Dispatch (30_encoding.md R70): what a word written to CMD does. A FATAL core drops every word; in the
error state every word but CLRERR's is dropped; else the word is decoded, and executed or an
`IllegalCommand`. -/
def commandWrite (w : Word) (s : State) : Host.Outcome State Fault Refusal :=
  if s.fatal then .next s
  else if s.errcode ≠ 0#8 then
    if w = 0x02000000#32 then exec .clrerr s else .next s
  else
    match decode w with
    | .ok i => exec i s
    | .error _ => .next (raise .illegalCommand w s)

/-- What `RegRead(off)` returns (10_state.md R32 to R39, R41): CMD reads 0, an offset with no register
reads 0. -/
def portRead (o : PortOffset) (s : State) : Word :=
  match portReg o with
  | .cmd => 0#32
  | .status => s.status
  | .errcmd => s.errcmd
  | .len => s.len
  | .src => s.src
  | .dst => s.dst
  | .klen => s.klen
  | .config => s.config
  | .empty => 0#32

/-- `RegWrite(off, v)` (10_state.md R32 to R41): CMD goes to the dispatch, LEN, SRC, DST and KLEN store
every value, a write to a read-only register or to no register is ignored. -/
def portWrite (o : PortOffset) (v : Word) (s : State) : Host.Outcome State Fault Refusal :=
  match portReg o with
  | .cmd => commandWrite v s
  | .len => .next { s with len := v }
  | .src => .next { s with src := v }
  | .dst => .next { s with dst := v }
  | .klen => .next { s with klen := v }
  | .status => .next s
  | .errcmd => .next s
  | .config => .next s
  | .empty => .next s

/-- One host action, in a state that the host's queue no longer holds it in (00_scope.md R6). -/
def hostAct : HostAction → State → Host.Outcome State Fault Refusal
  | .regWrite o v, s => portWrite o v s
  | .regRead o, s => .next { s with reply := .reg (portRead o s) }
  | .memWrite a v, s => orNoSuchWord (s.memWrite (absoluteAddress a) v)
  | .memRead a, s =>
    orNoSuchWord ((s.memRead (absoluteAddress a)).map fun v => { s with reply := .mem v })
  | .reset, s => .next (resetCore s)

/-- The state in which the host's next action happens: the action is taken off the queue and the last
reply is gone (logs 1, 2). -/
def State.taking (s : State) (rest : List HostAction) : State := { s with host := rest, reply := .nothing }

/-- One step of the machine: the host's next action, or, when the host does nothing, nothing
(00_scope.md R6; 60_exceptions.md R192; log 1). -/
def tick (s : State) : Host.Outcome State Fault Refusal :=
  match s.host with
  | [] => .next s
  | a :: rest => hostAct a (s.taking rest)

/-- The host's next action becomes the write of a word to CMD (10_state.md R32). -/
def State.issue (s : State) (w : Word) : State := { s with host := .regWrite ⟨0#6⟩ w :: s.host }

end Sys2Proof.Machine
end

