-- ==== Sys2Proof/Machine/Step.lean ====
section
/-! DEFINITION. The step (00_scope.md R6: one step for each action of the host). -/

namespace Sys2Proof.Machine

/-- One step of the machine. -/
def step (s : State) : Host.Outcome State Fault Refusal := tick s

/-- `s` with the command of a table word as the host's next action: the core fetches nothing, a command
runs when the host writes it to CMD (10_state.md R25, R32; log 1). -/
def State.withFetchWord (s : State) (nbits w : Nat) : State := s.issue (tableWord nbits w)

end Sys2Proof.Machine
end

