-- ==== Sys2Proof/WellFormed.lean ====
section
/-! DEFINITION. The checks that a number written down by a person must pass to be an operand, an offset or a
parameter of the machine.

Every term of `Instr` is a well-formed command, because its fields have the types of 30_encoding.md R75:
what can be ill-formed is a number before it becomes a field (30_encoding.md R80, R82; 10_state.md R30;
00_scope.md R11). -/

namespace Sys2Proof

/-- A block register is written B0 to B7 (30_encoding.md R75, R80). -/
def wellFormedReg (n : Nat) : Bool := n < 8

/-- An address is 0 to 0x1FFFFF (30_encoding.md R75, R80). -/
def wellFormedAddr (n : Nat) : Bool := n < 2 ^ 21

/-- A register-port offset is a multiple of 4 in 0x00 to 0xFC (10_state.md R30). -/
def wellFormedOffset (n : Nat) : Bool := n % 4 == 0 && n ≤ 0xFC

/-- The parameters of a machine: KW is a positive integer (00_scope.md R11). That KW and CBLK are at
most 65535 is in their types. -/
def Params.wellFormed (p : Params) : Bool := p.kw ≠ 0#16

/-- The register with a number that passes the check. -/
def blockReg? (n : Nat) : Option BlockReg := if h : n < 8 then some ⟨n, h⟩ else none

/-- The address with a number that passes the check. -/
def wordAddr? (n : Nat) : Option WordAddr := if wellFormedAddr n then some (BitVec.ofNat 21 n) else none

/-- The port offset with a byte offset that passes the check. -/
def portOffset? (n : Nat) : Option PortOffset :=
  if wellFormedOffset n then some ⟨BitVec.ofNat 6 (n / 4)⟩ else none

end Sys2Proof
end

