-- ==== Sys2Proof/Machine/Assembly.lean ====
section
/-! DEFINITION. The assembler of 30_encoding.md section 5: command lines (R80), pseudo-instructions (R81) and
host directives (R82). A program's text stands for the host actions it writes down; with them in
`State.host` the machine runs it. What R80 leaves open of the text's form is log 12. -/

namespace Sys2Proof.Machine

/-- A register of the register map by its name (10_state.md R31). -/
inductive PortName where
  | cmd | status | errcmd | len | src | dst | klen | config
  deriving DecidableEq, Repr

/-- The offset of a named register (10_state.md R31). -/
def PortName.offset : PortName → PortOffset
  | .cmd => ⟨0#6⟩
  | .status => ⟨1#6⟩
  | .errcmd => ⟨2#6⟩
  | .len => ⟨3#6⟩
  | .src => ⟨4#6⟩
  | .dst => ⟨5#6⟩
  | .klen => ⟨6#6⟩
  | .config => ⟨7#6⟩

/-- The registers `WR` may name (30_encoding.md R82). -/
def PortName.writable : PortName → Bool
  | .len | .src | .dst | .klen => true
  | .cmd | .status | .errcmd | .config => false

/-- A line of a program (30_encoding.md R80 to R82). -/
inductive AsmLine where
  /-- A command (R80). -/
  | command (i : Instr)
  /-- The pseudo-instruction `MOVB Bd, Ba` (R81). -/
  | movb (bd ba : BlockReg)
  /-- The pseudo-instruction `TWNEXT Bd` (R81). -/
  | twnext (bd : BlockReg)
  /-- The directive `WR reg, value` (R82). -/
  | wr (reg : PortName) (v : Word)
  /-- The directive `RD reg` (R82). -/
  | rd (reg : PortName)
  /-- The directive `WM addr, value` (R82). -/
  | wm (a : WordAddr) (v : Block)
  /-- The directive `RM addr` (R82). -/
  | rm (a : WordAddr)
  /-- The directive `RESET` (R82). -/
  | reset
  deriving DecidableEq, Repr

/-- The commands of a line, pseudo-instructions expanded (30_encoding.md R81); a directive has none. -/
def AsmLine.commands : AsmLine → List Instr
  | .command i => [i]
  | .movb bd ba => [.flip bd ba, .flip bd bd]
  | .twnext bd => [.twadv bd bd]
  | .wr _ _ | .rd _ | .wm _ _ | .rm _ | .reset => []

/-- The host actions a line stands for (30_encoding.md R82: a command line stands for the write of its
word to CMD). -/
def AsmLine.actions (l : AsmLine) : List HostAction :=
  match l with
  | .wr reg v => [.regWrite reg.offset v]
  | .rd reg => [.regRead reg.offset]
  | .wm a v => [.memWrite a v]
  | .rm a => [.memRead a]
  | .reset => [.reset]
  | .command _ | .movb _ _ | .twnext _ => l.commands.map fun i => .regWrite PortName.cmd.offset (encode i)

/-! ## Reading a line of text -/

/-- The characters before a comment, which `;` or `--` starts (30_encoding.md R80). -/
def stripComment : List Char → List Char
  | [] => []
  | [c] => if c = ';' then [] else [c]
  | c :: d :: cs => if c = ';' ∨ (c = '-' ∧ d = '-') then [] else c :: stripComment (d :: cs)

/-- A character between words. -/
def isBlank (c : Char) : Bool := c = ' ' || c = '\t'

/-- The pieces of a text between characters that `p` holds of, empty ones included. -/
def splitAt (p : Char → Bool) : List Char → List (List Char)
  | [] => [[]]
  | c :: cs =>
    match splitAt p cs with
    | [] => [[c]]
    | w :: ws => if p c then [] :: w :: ws else (c :: w) :: ws

/-- A text without the blanks at its two ends. -/
def trimBlanks (cs : List Char) : List Char :=
  (((cs.dropWhile isBlank).reverse).dropWhile isBlank).reverse

/-- The value of a hexadecimal digit, a decimal one included. -/
def hexDigit? (c : Char) : Option Nat :=
  let n := c.toNat
  if 48 ≤ n ∧ n ≤ 57 then some (n - 48)
  else if 97 ≤ n ∧ n ≤ 102 then some (n - 87)
  else if 65 ≤ n ∧ n ≤ 70 then some (n - 55)
  else none

/-- The number whose digits in a base are `cs`, after digits of value `acc`. -/
def digits? (base : Nat) : (acc : Nat) → List Char → Option Nat
  | acc, [] => some acc
  | acc, c :: cs =>
    match hexDigit? c with
    | some d => if d < base then digits? base (base * acc + d) cs else none
    | none => none

/-- A number, decimal or `0x` hexadecimal (30_encoding.md R80). -/
def number? : List Char → Option Nat
  | [] => none
  | ['0', 'x'] => none
  | '0' :: 'x' :: c :: cs => digits? 16 0 (c :: cs)
  | c :: cs => digits? 10 0 (c :: cs)

/-- A block register, `B0` to `B7` (30_encoding.md R80). -/
def regOperand? : List Char → Option BlockReg
  | ['B', c] => (digits? 10 0 [c]).bind blockReg?
  | _ => none

/-- An address, 0 to 0x1FFFFF (30_encoding.md R80). -/
def addrOperand? (cs : List Char) : Option WordAddr := (number? cs).bind wordAddr?

/-- A value of `n` bits. -/
def valueOperand? (n : Nat) (cs : List Char) : Option (BitVec n) :=
  (number? cs).bind fun v => if v < 2 ^ n then some (BitVec.ofNat n v) else none

/-- A register of the register map by its name in capitals (10_state.md R31, 30_encoding.md R82). -/
def portOperand? (cs : List Char) : Option PortName :=
  if cs = ['C', 'M', 'D'] then some .cmd
  else if cs = ['S', 'T', 'A', 'T', 'U', 'S'] then some .status
  else if cs = ['E', 'R', 'R', 'C', 'M', 'D'] then some .errcmd
  else if cs = ['L', 'E', 'N'] then some .len
  else if cs = ['S', 'R', 'C'] then some .src
  else if cs = ['D', 'S', 'T'] then some .dst
  else if cs = ['K', 'L', 'E', 'N'] then some .klen
  else if cs = ['C', 'O', 'N', 'F', 'I', 'G'] then some .config
  else none

/-- A line from its first word and its operands (the operand lists of 30_encoding.md R80 to R82). -/
def lineOf? (m : List Char) (ops : List (List Char)) : Option AsmLine :=
  let command (i : Option Instr) : Option AsmLine := i.map .command
  let one? (f : BlockReg → Instr) : Option AsmLine :=
    match ops with
    | [a] => command ((regOperand? a).map f)
    | _ => none
  let two? (f : BlockReg → BlockReg → AsmLine) : Option AsmLine :=
    match ops with
    | [d, a] => (regOperand? d).bind fun d => (regOperand? a).map fun a => f d a
    | _ => none
  let three? (f : BlockReg → BlockReg → BlockReg → Instr) : Option AsmLine :=
    match ops with
    | [d, a, b] => command ((regOperand? d).bind fun d => (regOperand? a).bind fun a =>
        (regOperand? b).map fun b => f d a b)
    | _ => none
  let memory? (f : BlockReg → WordAddr → Instr) : Option AsmLine :=
    match ops with
    | [d, a] => command ((regOperand? d).bind fun d => (addrOperand? a).map fun a => f d a)
    | _ => none
  let bare? (l : AsmLine) : Option AsmLine := if ops = [] then some l else none
  if m = ['N', 'O', 'P'] then bare? (.command .nop)
  else if m = ['C', 'L', 'R', 'E', 'R', 'R'] then bare? (.command .clrerr)
  else if m = ['L', 'D', 'B'] then memory? .ldb
  else if m = ['S', 'T', 'B'] then memory? .stb
  else if m = ['L', 'D', 'K', 'E', 'Y'] then
    match ops with
    | [a] => command ((addrOperand? a).map .ldkey)
    | _ => none
  else if m = ['G', 'F', 'M', 'U', 'L'] then three? .gfmul
  else if m = ['F', 'L', 'I', 'P'] then two? fun d a => .command (.flip d a)
  else if m = ['T', 'W', 'I', 'N', 'I', 'T'] then two? fun d a => .command (.twinit d a)
  else if m = ['T', 'W', 'A', 'D', 'V'] then two? fun d a => .command (.twadv d a)
  else if m = ['T', 'W', 'S', 'E', 'E', 'K'] then three? .twseek
  else if m = ['X', 'E', 'N', 'C'] then three? .xenc
  else if m = ['X', 'D', 'E', 'C'] then three? .xdec
  else if m = ['D', 'U', 'E', 'N', 'C'] then one? .duenc
  else if m = ['D', 'U', 'D', 'E', 'C'] then one? .dudec
  else if m = ['M', 'O', 'V', 'B'] then two? .movb
  else if m = ['T', 'W', 'N', 'E', 'X', 'T'] then
    match ops with
    | [d] => (regOperand? d).map .twnext
    | _ => none
  else if m = ['W', 'R'] then
    match ops with
    | [r, v] => (portOperand? r).bind fun r =>
        if r.writable then (valueOperand? 32 v).map (.wr r) else none
    | _ => none
  else if m = ['R', 'D'] then
    match ops with
    | [r] => (portOperand? r).map .rd
    | _ => none
  else if m = ['W', 'M'] then
    match ops with
    | [a, v] => (addrOperand? a).bind fun a => (valueOperand? 128 v).map (.wm a)
    | _ => none
  else if m = ['R', 'M'] then
    match ops with
    | [a] => (addrOperand? a).map .rm
    | _ => none
  else if m = ['R', 'E', 'S', 'E', 'T'] then bare? .reset
  else none

/-- The lines of one line of text: none for a blank or a comment, one else (30_encoding.md R80: one
command per line); nothing for a text that is no line of the assembler. -/
def readLine? (text : List Char) : Option (List AsmLine) :=
  match trimBlanks (stripComment text) with
  | [] => some []
  | c :: cs =>
    let m := (c :: cs).takeWhile (fun d => !isBlank d)
    let rest := trimBlanks ((c :: cs).dropWhile (fun d => !isBlank d))
    let ops := if rest = [] then [] else (splitAt (· = ',') rest).map trimBlanks
    (lineOf? m ops).map fun l => [l]

/-- The host actions a program's text stands for, line by line; nothing when some line is not one of the
assembler. -/
def assemble? : List (List Char) → Option (List HostAction)
  | [] => some []
  | t :: ts =>
    (readLine? t).bind fun ls => (assemble? ts).map fun as => ls.flatMap AsmLine.actions ++ as

end Sys2Proof.Machine
end

