-- ==== Sys2Proof/Safety.lean ====
section
/-! DEFINITION. What the claims about the core are said in: its invariant, and what a change of state leaves
alone (the frames). -/

namespace Sys2Proof.Safety

open Sys2Proof.Machine

/-! ## The invariant -/

/-- K1 and K2 are KW bits each (10_state.md R22). -/
def KeyWidths (s : State) : Prop := s.k1.width = s.kw ∧ s.k2.width = s.kw

/-- With KEYV = 0 both key registers are all zero (10_state.md R22: "with KEYV = 0 so that the zero key is
never used"; only LDKEY writes them, and it sets KEYV). -/
def NoKeyIsZero (s : State) : Prop := s.keyv = false → s.k1 = Key.zero s.kw ∧ s.k2 = Key.zero s.kw

/-- FATAL is CBLK ≠ 128 (10_state.md R24), and a FATAL core has ERRCODE 3, ERRCMD 0, KEYV 0
(60_exceptions.md R182, 10_state.md R33). -/
def FatalMeansBlockSize (s : State) : Prop :=
  s.fatal = decide (s.params.cblk ≠ Config.blockBits) ∧
    (s.fatal = true → s.errcode = ErrorName.unsupportedBlockSize.code ∧ s.errcmd = 0#32 ∧ s.keyv = false)

/-- The commands that may have raised an error with a code, by their recorded word: the columns "raised
by" and "recorded" of 60_exceptions.md R176. Codes 8 to 255 are never produced. -/
def ErrorRecorded (s : State) : Prop :=
  (s.errcode = 0#8 ∧ s.errcmd = 0#32) ∨
  (s.errcode = ErrorName.invalidLength.code ∧
    ∃ ba, s.errcmd = encode (.duenc ba) ∨ s.errcmd = encode (.dudec ba)) ∨
  (s.errcode = ErrorName.invalidKeyMaterial.code ∧ ∃ addr, s.errcmd = encode (.ldkey addr)) ∨
  (s.errcode = ErrorName.unsupportedBlockSize.code ∧ s.errcmd = 0#32 ∧ s.fatal = true) ∨
  (s.errcode = ErrorName.illegalCommand.code ∧ ∃ why, decode s.errcmd = .error why) ∨
  (s.errcode = ErrorName.noKey.code ∧
    ∃ bd ba bb, s.errcmd = encode (.twinit bd ba) ∨ s.errcmd = encode (.xenc bd ba bb) ∨
      s.errcmd = encode (.xdec bd ba bb) ∨ s.errcmd = encode (.duenc ba) ∨ s.errcmd = encode (.dudec ba)) ∨
  (s.errcode = ErrorName.addrRange.code ∧
    ∃ addr ba, s.errcmd = encode (.ldkey addr) ∨ s.errcmd = encode (.duenc ba) ∨
      s.errcmd = encode (.dudec ba)) ∨
  (s.errcode = ErrorName.overlap.code ∧
    ∃ ba, s.errcmd = encode (.duenc ba) ∨ s.errcmd = encode (.dudec ba))

/-- The invariant of the core, which reset establishes and every step keeps. -/
structure Inv (s : State) : Prop where
  /-- The data memory is in its canonical form and lists no cell that does not exist (20_memory.md R51). -/
  memory : s.mem.wf = true
  keyWidths : KeyWidths s
  noKeyIsZero : NoKeyIsZero s
  fatal : FatalMeansBlockSize s
  errorRecorded : ErrorRecorded s

/-! ## What a change leaves alone -/

/-- Every block register but those of `p` is unchanged. -/
def SameBlocksBut (p : BlockReg → Prop) (s t : State) : Prop := ∀ r, ¬p r → t.readB r = s.readB r

/-- Every block register is unchanged. -/
def SameBlocks (s t : State) : Prop := ∀ r, t.readB r = s.readB r

/-- The key registers and KEYV are unchanged. -/
def SameKeys (s t : State) : Prop := t.k1 = s.k1 ∧ t.k2 = s.k2 ∧ t.keyv = s.keyv

/-- ERRCODE, ERRCMD and FATAL are unchanged. -/
def SameError (s t : State) : Prop := t.errcode = s.errcode ∧ t.errcmd = s.errcmd ∧ t.fatal = s.fatal

/-- LEN, SRC, DST and KLEN are unchanged. -/
def SamePort (s t : State) : Prop := t.len = s.len ∧ t.src = s.src ∧ t.dst = s.dst ∧ t.klen = s.klen

/-- Every byte of the data memory reads as before. -/
def SameDmem (s t : State) : Prop := ∀ c, t.dmemByte c = s.dmemByte c

/-- Every byte of the data memory outside the words `a` to `a+n-1` reads as before. -/
def SameDmemBut (a n : Nat) (s t : State) : Prop :=
  ∀ c, ¬(16 * a ≤ c ∧ c < 16 * (a + n)) → t.dmemByte c = s.dmemByte c

/-- The model's own fields are unchanged: the parameters, the count of resets, the host's further
actions and the reply (logs 1, 2, 3, 5). -/
def SameOwn (s t : State) : Prop :=
  t.params = s.params ∧ t.resets = s.resets ∧ t.host = s.host ∧ t.reply = s.reply

/-- Nothing but block register `bd` changes. -/
def OnlyBlock (bd : BlockReg) (s t : State) : Prop :=
  SameBlocksBut (· = bd) s t ∧ SameKeys s t ∧ SameError s t ∧ SamePort s t ∧ SameDmem s t ∧ SameOwn s t

/-- Nothing but the words `a` to `a+n-1` of the data memory changes. -/
def OnlyWords (a n : Nat) (s t : State) : Prop :=
  SameBlocks s t ∧ SameKeys s t ∧ SameError s t ∧ SamePort s t ∧ SameDmemBut a n s t ∧ SameOwn s t

/-- Nothing but K1, K2 and KEYV changes. -/
def OnlyKeys (s t : State) : Prop :=
  SameBlocks s t ∧ SameError s t ∧ SamePort s t ∧ SameDmem s t ∧ SameOwn s t

/-- Nothing but ERRCODE and ERRCMD changes. -/
def OnlyErrorRegisters (s t : State) : Prop :=
  SameBlocks s t ∧ SameKeys s t ∧ t.fatal = s.fatal ∧ SamePort s t ∧ SameDmem s t ∧ SameOwn s t

/-- `t` is `s` after `raise X(w)`: the two error registers hold the error, nothing else has changed
(60_exceptions.md R179). -/
def Raised (e : ErrorName) (w : Word) (s t : State) : Prop :=
  t.errcode = e.code ∧ t.errcmd = w ∧ OnlyErrorRegisters s t

/-- No architectural state has changed: at most the host's queue and reply have (logs 1, 2). -/
def SameCore (s t : State) : Prop :=
  SameBlocks s t ∧ SameKeys s t ∧ SameError s t ∧ SamePort s t ∧ SameDmem s t ∧
    t.params = s.params ∧ t.resets = s.resets

/-! ## When a data-unit command is executed -/

/-- The length is valid: `128 ≤ n` and `ceil(n/128) ≤ 2^20` (43_data_unit_codec.md R136). -/
def ValidLength (s : State) : Prop := 128 ≤ s.unitBits ∧ s.unitBlocks ≤ 2 ^ 20

/-- Source and destination are in the data memory (R143 check 3). -/
def RangesFit (s : State) : Prop :=
  s.sourceAddress + s.unitBlocks ≤ 2 ^ 21 ∧ s.destAddress + s.unitBlocks ≤ 2 ^ 21

/-- Source and destination are the same range or do not meet (R143 check 4, R147). -/
def InPlaceOrDisjoint (s : State) : Prop :=
  s.sourceAddress = s.destAddress ∨ s.destAddress + s.unitBlocks ≤ s.sourceAddress ∨
    s.sourceAddress + s.unitBlocks ≤ s.destAddress

/-- All four checks of R143 pass. -/
def UnitReady (s : State) : Prop := ValidLength s ∧ s.keyv = true ∧ RangesFit s ∧ InPlaceOrDisjoint s

end Sys2Proof.Safety
end

