-- ==== Sys2Proof/Safety/Field.lean ====
section
/-! DEFINITION. The field of 40_field_arithmetic.md as polynomials over GF(2): what the claims about the
multiplier are said in. The machine does not use it. -/

namespace Sys2Proof.Safety

open Polynomial

/-- `poly(u) = Σ u[i]·x^i`: bit `i` is the coefficient of `x^i` (40_field_arithmetic.md R91). -/
noncomputable def poly (u : Block) : (ZMod 2)[X] :=
  ∑ i ∈ Finset.range 128, if u.getLsbD i then X ^ i else 0

/-- `x^128 + x^7 + x^2 + x + 1` (40_field_arithmetic.md R90, R94). -/
noncomputable def fieldModulus : (ZMod 2)[X] := X ^ 128 + X ^ 7 + X ^ 2 + X + 1

end Sys2Proof.Safety
end

