-- ==== Sys2Proof/Certificates/Slice0/Obligations.lean ====
section
/-! DEFINITION. The statements about the core, for the provers. Each docstring names the rule of spec/ it says.
Every statement that mentions the model's own fields (the host's queue, the reply, the count of resets,
the parameters: logs 1, 2, 3, 5) says so where they are all it says. -/

open Sys2Proof Sys2Proof.Machine Sys2Proof.Safety

/-! ## Encoding -/

/-- Decoding the word of a command gives the command back, for every command with every operand
(30_encoding.md R72 to R76). -/
def Obligations.DecodeOfEncodeIsTheCommand : Prop :=
  ∀ i : Instr, decode (encode i) = .ok i

/-- A legal word is the one word of its command: no bit of it is dropped (30_encoding.md R71 to R77). -/
def Obligations.EncodeOfDecodeIsTheWord : Prop :=
  ∀ (w : Word) (i : Instr), decode w = .ok i → encode i = w

/-- R70: "At most one row matches any w". -/
def Obligations.AtMostOneRowSelectsAWord : Prop :=
  ∀ w : Word, ∀ r ∈ opcodeMap, ∀ q ∈ opcodeMap, r.selects w = true → q.selects w = true →
    r.mnemonic = q.mnemonic

/-- Words written out from the encodings of 30_encoding.md R76 decode to what they stand for, and the
all-zero and all-ones words do not decode (R77). -/
def Obligations.SampleWordsDecode : Prop :=
  decode 0x20408000#32 = .ok (.gfmul 2 0 1) ∧ decode 0x10600010#32 = .ok (.ldb 3 0x10#21) ∧
  decode 0x11400020#32 = .ok (.stb 2 0x20#21) ∧ decode 0x501C0000#32 = .ok (.duenc 7) ∧
  decode 0x41688000#32 = .ok (.xdec 3 2 1) ∧ decode 0x02000000#32 = .ok .clrerr ∧
  (∃ e, decode 0x00000000#32 = .error e) ∧ ∃ e, decode 0xFFFFFFFF#32 = .error e

/-! ## The step and the error state -/

/-- 30_encoding.md R70, last case: outside the error state, the write of a word to CMD is the command the
word decodes to, executed in the state in which the host's action has been taken off its queue. -/
def Obligations.StepRunsTheDecodedCommand : Prop :=
  ∀ (s : State) (w : Word) (rest : List HostAction) (i : Instr),
    s.host = .regWrite PortName.cmd.offset w :: rest → s.fatal = false → s.errcode = 0#8 →
    decode w = .ok i → step s = exec i (s.taking rest)

/-- R77: outside the error state a word that matches no row raises `IllegalCommand`; in the error state it
is dropped. The words of R77(a), (b) and (c) match no row. -/
def Obligations.WordWithNoRowIsIllegal : Prop :=
  (∀ (s : State) (w : Word) (rest : List HostAction),
    s.host = .regWrite PortName.cmd.offset w :: rest → (∀ r ∈ opcodeMap, w &&& r.mask ≠ r.pattern) →
    (s.fatal = false → s.errcode = 0#8 →
      ∃ t, step s = .next t ∧ Raised .illegalCommand w (s.taking rest) t) ∧
    (s.errcode ≠ 0#8 → step s = .next (s.taking rest))) ∧
  (∀ w : Word, (∀ r ∈ opcodeMap, w.extractLsb' 24 8 ≠ r.pattern.extractLsb' 24 8) →
    ∀ r ∈ opcodeMap, w &&& r.mask ≠ r.pattern) ∧
  (∀ (r : OpcodeRow) (w : Word), r ∈ opcodeMap → w.extractLsb' 24 8 = r.pattern.extractLsb' 24 8 →
    w &&& r.mask ≠ r.pattern → ∀ q ∈ opcodeMap, w &&& q.mask ≠ q.pattern)

/-- R70: "The step always ends; there is no command that waits." No step of the model faults or refuses:
the guard of 20_memory.md R52 is never reached. -/
def Obligations.EveryStepAnswersANextState : Prop :=
  ∀ s : State, ∃ t, step s = .next t

/-- 60_exceptions.md R180 and R182: in the error state every word but CLRERR's, and in the FATAL state
every word, is dropped: nothing changes but that the host's action has been taken. -/
def Obligations.WordsAreDroppedInTheErrorState : Prop :=
  ∀ (s : State) (w : Word) (rest : List HostAction),
    s.host = .regWrite PortName.cmd.offset w :: rest →
    (s.fatal = true ∨ (s.errcode ≠ 0#8 ∧ w ≠ 0x02000000#32)) → step s = .next (s.taking rest)

/-- 60_exceptions.md R175 and R180. ERRCODE and ERRCMD change only at a reset or a write of CMD. With no
error pending they take one only by `raise` at the write of the word that raises it, or by a reset. The
error state never ends by itself, and they describe the first error since the last CLRERR or reset: while
ERRCODE is not 0, a step that is neither a reset nor the write of CLRERR's word to CMD leaves both. -/
def Obligations.FirstErrorIsKept : Prop :=
  (∀ s t : State, step s = .next t →
    (t.errcode = s.errcode ∧ t.errcmd = s.errcmd) ∨
    (∃ rest, s.host = .reset :: rest) ∨
    ∃ w rest, s.host = .regWrite PortName.cmd.offset w :: rest) ∧
  (∀ s t : State, s.errcode = 0#8 → step s = .next t → t.errcode ≠ 0#8 →
    (∃ rest, s.host = .reset :: rest) ∨
    ∃ e w rest, s.host = .regWrite PortName.cmd.offset w :: rest ∧ Raised e w (s.taking rest) t) ∧
  ∀ s t : State, s.errcode ≠ 0#8 → step s = .next t →
    (t.errcode = s.errcode ∧ t.errcmd = s.errcmd) ∨
    (∃ rest, s.host = .reset :: rest) ∨
    ∃ rest, s.host = .regWrite PortName.cmd.offset 0x02000000#32 :: rest

/-- 60_exceptions.md R182: a FATAL core stays FATAL for as long as it exists, whatever the host does: after
any number of steps, resets among them, STATUS reads 0x00000306. The hypothesis is the core's invariant. -/
def Obligations.FatalCoreStaysFatal : Prop :=
  ∀ (k : Nat) (s t : State), Inv s → s.fatal = true → Sys2Proof.core.run k s = .next t →
    t.fatal = true ∧ t.errcode = ErrorName.unsupportedBlockSize.code ∧ t.errcmd = 0#32 ∧
      t.status = 0x00000306#32

/-! ## Reset and the invariant -/

/-- 10_state.md R42: the table of the reset values, after the host action `Reset` in any state. The
parameters and the host's further actions are not the core's and stay; the count of resets is log 5. -/
def Obligations.ResetGivesTheTable : Prop :=
  ∀ (s : State) (rest : List HostAction), s.host = .reset :: rest →
    ∃ t, step s = .next t ∧ (∀ r, t.readB r = 0#128) ∧ t.k1 = Key.zero s.kw ∧ t.k2 = Key.zero s.kw ∧
      t.keyv = false ∧ t.errcmd = 0#32 ∧ t.len = 0#32 ∧ t.src = 0#32 ∧ t.dst = 0#32 ∧ t.klen = 0#32 ∧
      (s.params.cblk ≠ 128#16 → t.fatal = true ∧ t.errcode = 3#8) ∧
      (s.params.cblk = 128#16 → t.fatal = false ∧ t.errcode = 0#8) ∧
      (∀ c, t.dmemByte c = Config.dmemAtReset t.resets c) ∧
      t.params = s.params ∧ t.host = rest ∧ t.resets = s.resets + 1

/-- The invariant holds of the state after reset (its parameters are the model's choice, log 3), and of
the state a reset leaves in a machine with any parameters. -/
def Obligations.ResetEstablishesTheInvariant : Prop :=
  Inv State.reset ∧ ∀ s : State, Inv (resetCore s)

/-- Every step from every state keeps the invariant: the data memory canonical and inside its 2^21 words
(20_memory.md R51, R52), the key widths (10_state.md R22), zero keys while KEYV = 0, FATAL as CBLK says
(60_exceptions.md R182), and the table of error codes, what raises each and what is recorded (R176). -/
def Obligations.EveryStepKeepsTheInvariant : Prop :=
  ∀ s t : State, Inv s → step s = .next t → Inv t

/-! ## The register port and the memory port -/

/-- 10_state.md R33: the bits of STATUS, that reading it changes nothing of the core (the reply is the
model's own, log 2), and that a write is ignored. -/
def Obligations.StatusReadsItsFields : Prop :=
  ∀ (s : State) (rest : List HostAction),
    (s.host = .regRead PortName.status.offset :: rest →
      ∃ v : Word, step s = .next { s.taking rest with reply := .reg v } ∧
        v.getLsbD 0 = s.keyv ∧ v.getLsbD 1 = decide (s.errcode ≠ 0#8) ∧ v.getLsbD 2 = s.fatal ∧
        v.extractLsb' 3 5 = 0#5 ∧ v.extractLsb' 8 8 = s.errcode ∧ v.extractLsb' 16 16 = 0#16 ∧
        (Inv s → s.fatal = true → v = 0x00000306#32)) ∧
    (∀ v, s.host = .regWrite PortName.status.offset v :: rest → step s = .next (s.taking rest))

/-- 10_state.md R41: CONFIG reads KW in bits 15:0 and CBLK in bits 31:16, a write is ignored, and no step
changes what it reads. -/
def Obligations.ConfigReadsTheParameters : Prop :=
  (∀ s t : State, step s = .next t → t.config = s.config) ∧
  ∀ (s : State) (rest : List HostAction),
    (s.host = .regRead PortName.config.offset :: rest →
      ∃ v : Word, step s = .next { s.taking rest with reply := .reg v } ∧
        v.extractLsb' 0 16 = s.params.kw ∧ v.extractLsb' 16 16 = s.params.cblk) ∧
    (∀ v, s.host = .regWrite PortName.config.offset v :: rest → step s = .next (s.taking rest))

/-- 10_state.md R39: offsets 0x20 to 0xFC hold no register: a read returns 0, a write is ignored, neither
changes the core. -/
def Obligations.UnusedOffsetsReadZero : Prop :=
  ∀ (s : State) (rest : List HostAction) (o : PortOffset), 0x20 ≤ o.byteOffset.toNat →
    (s.host = .regRead o :: rest → step s = .next { s.taking rest with reply := .reg 0#32 }) ∧
    (∀ v, s.host = .regWrite o v :: rest → step s = .next (s.taking rest))

/-- 10_state.md R31, R32 and R34 to R38 with R40: in every state of the core a write of LEN, SRC, DST or
KLEN stores the value and changes nothing else; a read of them, of ERRCMD and of CMD returns what they
hold (CMD 0) and changes nothing; a write of ERRCMD is ignored. -/
def Obligations.PortRegistersReadAndWrite : Prop :=
  ∀ (s : State) (rest : List HostAction) (v : Word),
    (s.host = .regWrite PortName.len.offset v :: rest → step s = .next { s.taking rest with len := v }) ∧
    (s.host = .regWrite PortName.src.offset v :: rest → step s = .next { s.taking rest with src := v }) ∧
    (s.host = .regWrite PortName.dst.offset v :: rest → step s = .next { s.taking rest with dst := v }) ∧
    (s.host = .regWrite PortName.klen.offset v :: rest → step s = .next { s.taking rest with klen := v }) ∧
    (s.host = .regWrite PortName.errcmd.offset v :: rest → step s = .next (s.taking rest)) ∧
    (s.host = .regRead PortName.len.offset :: rest →
      step s = .next { s.taking rest with reply := .reg s.len }) ∧
    (s.host = .regRead PortName.src.offset :: rest →
      step s = .next { s.taking rest with reply := .reg s.src }) ∧
    (s.host = .regRead PortName.dst.offset :: rest →
      step s = .next { s.taking rest with reply := .reg s.dst }) ∧
    (s.host = .regRead PortName.klen.offset :: rest →
      step s = .next { s.taking rest with reply := .reg s.klen }) ∧
    (s.host = .regRead PortName.errcmd.offset :: rest →
      step s = .next { s.taking rest with reply := .reg s.errcmd }) ∧
    (s.host = .regRead PortName.cmd.offset :: rest →
      step s = .next { s.taking rest with reply := .reg 0#32 })

/-- 20_memory.md R55 and R56 with R60: in every state of the core, whatever the host does next, a host write
of a word sets that word and nothing else; and a host read right after it returns the value written. -/
def Obligations.HostMemoryWriteThenRead : Prop :=
  ∀ (s : State) (rest : List HostAction) (a : WordAddr) (v : Block),
    s.host = .memWrite a v :: rest →
    ∃ t, step s = .next t ∧ OnlyWords a.toNat 1 (s.taking rest) t ∧ t.dmemWord a.toNat = v ∧
      ∀ rest', rest = .memRead a :: rest' →
        ∃ u, step t = .next u ∧ u.reply = .mem v ∧ SameCore t u ∧ u.host = rest'

/-- 20_memory.md R55 and R56 with 70_reset_and_hazards.md R203: in every state of the core, whatever the host
does next, a host read of a word, written or not, returns it and changes nothing of the core; and a second
read with nothing in between returns the same value. -/
def Obligations.HostMemoryReadsAreStable : Prop :=
  ∀ (s : State) (rest : List HostAction) (a : WordAddr),
    s.host = .memRead a :: rest →
    ∃ t, step s = .next t ∧ t.reply = .mem (s.dmemWord a.toNat) ∧ SameCore s t ∧ t.host = rest ∧
      ∀ rest', rest = .memRead a :: rest' →
        ∃ u, step t = .next u ∧ u.reply = t.reply ∧ SameCore s u ∧ u.host = rest'

/-! ## Data movement and system commands -/

/-- R164: NOP is the word 0x01000000; written to CMD in any state of the core it changes nothing, and the
all-zero word is not NOP, it is illegal. -/
def Obligations.NopChangesNothing : Prop :=
  (∀ s : State, exec .nop s = .next s) ∧ decode 0x01000000#32 = .ok .nop ∧
  (∀ (s : State) (rest : List HostAction),
    s.host = .regWrite PortName.cmd.offset 0x01000000#32 :: rest → step s = .next (s.taking rest)) ∧
  ∃ e, decode 0x00000000#32 = .error e

/-- R165: CLRERR is the word 0x02000000; in every state it does nothing when FATAL = 1 and else makes
ERRCODE and ERRCMD 0 and restores nothing else; with no error pending it changes nothing. -/
def Obligations.ClrerrLeavesTheErrorState : Prop :=
  (∀ s : State, ∃ t, exec .clrerr s = .next t ∧ OnlyErrorRegisters s t ∧
    (s.fatal = true → t.errcode = s.errcode ∧ t.errcmd = s.errcmd) ∧
    (s.fatal = false → t.errcode = 0#8 ∧ t.errcmd = 0#32 ∧ t.status.getLsbD 1 = false) ∧
    (s.errcode = 0#8 → s.errcmd = 0#32 → t = s)) ∧
  (∀ (s : State) (rest : List HostAction),
    s.host = .regWrite PortName.cmd.offset 0x02000000#32 :: rest → step s = exec .clrerr (s.taking rest))

/-- R160: LDB copies the data memory word to the register and changes nothing else, in every state and for
every register and address; a word nothing has written is a free value (log 5). -/
def Obligations.LdbLoadsTheWord : Prop :=
  ∀ (bd : BlockReg) (addr : WordAddr) (s : State),
    decode (0x10#8 ++ BitVec.ofNat 3 bd.val ++ addr) = .ok (.ldb bd addr) ∧
    ∃ t, exec (.ldb bd addr) s = .next t ∧ OnlyBlock bd s t ∧
      ∀ j, j < 16 → byte (t.readB bd) j = s.dmemByte (16 * addr.toNat + j)

/-- R161: STB stores the register in the data memory word, all sixteen bytes of it, and changes nothing
else, in every state and for every register and address. -/
def Obligations.StbStoresTheBlock : Prop :=
  ∀ (bs : BlockReg) (addr : WordAddr) (s : State),
    decode (0x11#8 ++ BitVec.ofNat 3 bs.val ++ addr) = .ok (.stb bs addr) ∧
    ∃ t, exec (.stb bs addr) s = .next t ∧ OnlyWords addr.toNat 1 s t ∧
      t.dmemWord addr.toNat = s.readB bs ∧
      ∀ j, j < 16 → t.dmemByte (16 * addr.toNat + j) = byte (s.readB bs) j

/-- R162 and R163: with KLEN = 2*KW and the key words in range, LDKEY loads K1 and K2 and sets KEYV, and
nothing else changes. Bit `b` of the key material, counted from its first bit, is bit `127 - b % 128` of
word `addr + b / 128`; K1 is its first KW bits, K2 the next KW bits. -/
def Obligations.LdkeyLoadsBothSubKeys : Prop :=
  ∀ (addr : WordAddr) (s : State),
    decode (0x12#8 ++ 0#3 ++ addr) = .ok (.ldkey addr) ∧
    (s.klen.toNat = 2 * s.kw → addr.toNat + (2 * s.kw + 127) / 128 ≤ 2 ^ 21 →
      ∃ t, exec (.ldkey addr) s = .next t ∧ OnlyKeys s t ∧ t.keyv = true ∧
        t.k1.width = s.kw ∧ t.k2.width = s.kw ∧
        (∀ b, b < s.kw → t.k1.bits.getLsbD (s.kw - 1 - b) =
          (s.dmemWord (addr.toNat + b / 128)).getLsbD (127 - b % 128)) ∧
        ∀ b, b < s.kw → t.k2.bits.getLsbD (s.kw - 1 - b) =
          (s.dmemWord (addr.toNat + (s.kw + b) / 128)).getLsbD (127 - (s.kw + b) % 128))

/-- R163, the errors of LDKEY in their order: KLEN other than 2*KW, then a key that runs past the end of
the data memory. On either the keys and KEYV keep their values. -/
def Obligations.LdkeyRaisesItsErrors : Prop :=
  ∀ (addr : WordAddr) (s : State),
    (s.klen.toNat ≠ 2 * s.kw →
      ∃ t, exec (.ldkey addr) s = .next t ∧
        Raised .invalidKeyMaterial (0x12#8 ++ 0#3 ++ addr) s t) ∧
    (s.klen.toNat = 2 * s.kw → 2 ^ 21 < addr.toNat + (2 * s.kw + 127) / 128 →
      ∃ t, exec (.ldkey addr) s = .next t ∧ Raised .addrRange (0x12#8 ++ 0#3 ++ addr) s t)

/-! ## Field arithmetic -/

/-- R98: GFMUL writes the field product of its sources and changes nothing else, in every state: the
polynomial of the result is the product of the polynomials of the sources modulo
x^128 + x^7 + x^2 + x + 1 (R91, R94). Both sources are read before the destination is written. -/
def Obligations.GfmulWritesTheFieldProduct : Prop :=
  ∀ (bd ba bb : BlockReg) (s : State),
    decode (0x20#8 ++ BitVec.ofNat 3 bd.val ++ BitVec.ofNat 3 ba.val ++ BitVec.ofNat 3 bb.val ++ 0#15) =
      .ok (.gfmul bd ba bb) ∧
    ∃ t, exec (.gfmul bd ba bb) s = .next t ∧ OnlyBlock bd s t ∧
      poly (t.readB bd) = (poly (s.readB ba) * poly (s.readB bb)) %ₘ fieldModulus

/-- R99: FLIP writes the source with its sixteen bytes in reverse order and changes nothing else, in every
state. -/
def Obligations.FlipReversesTheBytes : Prop :=
  ∀ (bd ba : BlockReg) (s : State),
    decode (0x21#8 ++ BitVec.ofNat 3 bd.val ++ BitVec.ofNat 3 ba.val ++ 0#18) = .ok (.flip bd ba) ∧
    ∃ t, exec (.flip bd ba) s = .next t ∧ OnlyBlock bd s t ∧
      ∀ j, j < 16 → byte (t.readB bd) j = byte (s.readB ba) (15 - j)

/-- R92: `flipEndian` reverses the bytes and keeps the bits of each; it is its own inverse, distributes
over XOR, fixes 0, is a bijection, and fixes exactly the byte palindromes. -/
def Obligations.FlipEndianLaws : Prop :=
  (∀ v : Block, ∀ k, k < 16 → (flipEndian v).extractLsb' (8 * k) 8 = v.extractLsb' (120 - 8 * k) 8) ∧
  (∀ v : Block, flipEndian (flipEndian v) = v) ∧
  (∀ v w : Block, flipEndian (v ^^^ w) = flipEndian v ^^^ flipEndian w) ∧
  flipEndian 0#128 = 0#128 ∧ Function.Bijective flipEndian ∧
  ∀ v : Block, flipEndian v = v ↔ ∀ j, j < 16 → byte v j = byte v (15 - j)

/-- R94: the polynomial of `multiply(a, b)` is the remainder of the product, and no other block's is. -/
def Obligations.MultiplyIsTheRemainderOfTheProduct : Prop :=
  ∀ a b c : Block, multiply a b = c ↔ poly c = (poly a * poly b) %ₘ fieldModulus

/-- R95: the laws of `multiply`. -/
def Obligations.MultiplyLaws : Prop :=
  (∀ a b : Block, multiply a b = multiply b a) ∧
  (∀ a b c : Block, multiply (multiply a b) c = multiply a (multiply b c)) ∧
  (∀ a b c : Block, multiply a (b ^^^ c) = multiply a b ^^^ multiply a c) ∧
  (∀ a : Block, multiply a one = a ∧ multiply a 0#128 = 0#128) ∧
  ∀ a : Block, multiply a alpha =
    (a.extractLsb' 0 127 ++ 0#1) ^^^ (if a.getLsbD 127 then RED else 0#128)

/-- R96, its consequences: the `2^128` values form a field, so a product is zero only when a factor is, and
`alphaPow(i) = one` exactly when `i` is a multiple of `2^128 - 1`. The order is the spec author's own
computation: R96 marks it "derived" and "not a statement of the document". -/
def Obligations.FieldHasNoZeroDivisorsAndAlphaIsPrimitive : Prop :=
  (∀ a b : Block, multiply a b = 0#128 → a = 0#128 ∨ b = 0#128) ∧
  ∀ i : Nat, alphaPow i = one ↔ (2 ^ 128 - 1) ∣ i

/-! ## The tweak generator -/

/-- R117 with R110 and R111: TWINIT without a key raises `NoKey`; with one it writes E(K2, iv) for the iv
whose bytes are those of the sequence number in reverse order. Nothing else changes. -/
def Obligations.TwinitEncryptsTheSequenceNumber : Prop :=
  ∀ (bd ba : BlockReg) (s : State),
    decode (0x30#8 ++ BitVec.ofNat 3 bd.val ++ BitVec.ofNat 3 ba.val ++ 0#18) = .ok (.twinit bd ba) ∧
    (s.keyv = false → ∃ t, exec (.twinit bd ba) s = .next t ∧
      Raised .noKey (0x30#8 ++ BitVec.ofNat 3 bd.val ++ BitVec.ofNat 3 ba.val ++ 0#18) s t) ∧
    (s.keyv = true →
      ∃ t x, exec (.twinit bd ba) s = .next t ∧ OnlyBlock bd s t ∧ t.readB bd = Config.encrypt s.k2 x ∧
        ∀ j, j < 16 → byte x j = byte (s.readB ba) (15 - j))

/-- R118: TWADV writes the next tweak and changes nothing else, in every state. The tweak is also said by
its bytes (R115): the sixteen bytes are a little-endian number, shifted left by one, and a bit that falls out
of the top puts 0x87 into byte 0. -/
def Obligations.TwadvWritesTheNextTweak : Prop :=
  ∀ (bd ba : BlockReg) (s : State),
    decode (0x31#8 ++ BitVec.ofNat 3 bd.val ++ BitVec.ofNat 3 ba.val ++ 0#18) = .ok (.twadv bd ba) ∧
    ∃ t, exec (.twadv bd ba) s = .next t ∧ OnlyBlock bd s t ∧
      t.readB bd = flipEndian (multiply (flipEndian (s.readB ba)) 2#128) ∧
      (∀ j, 1 ≤ j → j < 16 → byte (t.readB bd) j =
        (byte (s.readB ba) j <<< 1) ||| (byte (s.readB ba) (j - 1) >>> 7)) ∧
      byte (t.readB bd) 0 = (byte (s.readB ba) 0 <<< 1) ^^^
        (if (byte (s.readB ba) 15) >>> 7 = 1#8 then 0x87#8 else 0#8)

/-- R119 with R114: TWSEEK writes `seek(B[ba], i)` for `i` all 128 bits of `B[bb]`, which is the tweak `i`
advances on, and changes nothing else, in every state. -/
def Obligations.TwseekAdvancesByTheDistance : Prop :=
  ∀ (bd ba bb : BlockReg) (s : State),
    decode (0x32#8 ++ BitVec.ofNat 3 bd.val ++ BitVec.ofNat 3 ba.val ++ BitVec.ofNat 3 bb.val ++ 0#15) =
      .ok (.twseek bd ba bb) ∧
    ∃ t, exec (.twseek bd ba bb) s = .next t ∧ OnlyBlock bd s t ∧
      t.readB bd = seek (s.readB ba) (s.readB bb).toNat ∧
      t.readB bd = advance^[(s.readB bb).toNat] (s.readB ba)

/-- R114: `alphaPow` and `seek`, and their law: seeking is advancing that many times, so a tweak is reached
either way; and square and multiply gives the same power. -/
def Obligations.SeekIsRepeatedAdvance : Prop :=
  (alphaPow 0 = 1#128 ∧ ∀ i, alphaPow (i + 1) = multiply (alphaPow i) 2#128) ∧
  (∀ i : Block, alphaPowOf i = alphaPow i.toNat) ∧
  (∀ (t : Block) (i : Nat), seek t i = flipEndian (multiply (flipEndian t) (alphaPow i)) ∧
    seek t i = advance^[i] t) ∧
  ∀ (c : Cipher) (key2 : Key) (seq : Block) (i : Nat), tweak c key2 seq i = seek (tweak0 c key2 seq) i

/-- R116: no two positions of a data unit share a tweak if and only if the first tweak is not zero; when
it is zero every tweak is; and a cipher that is a permutation for the key gives it for exactly one iv. -/
def Obligations.TweaksAreDistinctUnlessTheFirstIsZero : Prop :=
  ∀ (c : Cipher) (key2 : Key) (seq : Block),
    ((∀ i j, i < j → j < 2 ^ 20 → tweak c key2 seq i ≠ tweak c key2 seq j) ↔ tweak0 c key2 seq ≠ 0#128) ∧
    (tweak0 c key2 seq = 0#128 → ∀ i, tweak c key2 seq i = 0#128) ∧
    (Function.Bijective (c.encrypt key2) → ∃! v : Block, c.encrypt key2 v = 0#128)

/-! ## The block codec -/

/-- R128 with R125: XENC without a key raises `NoKey`; with one it writes E(K1, P ^ t) ^ t. Nothing else changes. -/
def Obligations.XencWritesTheEnvelope : Prop :=
  ∀ (bd ba bb : BlockReg) (s : State),
    decode (0x40#8 ++ BitVec.ofNat 3 bd.val ++ BitVec.ofNat 3 ba.val ++ BitVec.ofNat 3 bb.val ++ 0#15) =
      .ok (.xenc bd ba bb) ∧
    (s.keyv = false → ∃ t, exec (.xenc bd ba bb) s = .next t ∧ Raised .noKey
      (0x40#8 ++ BitVec.ofNat 3 bd.val ++ BitVec.ofNat 3 ba.val ++ BitVec.ofNat 3 bb.val ++ 0#15) s t) ∧
    (s.keyv = true →
      ∃ t, exec (.xenc bd ba bb) s = .next t ∧ OnlyBlock bd s t ∧
        t.readB bd = Config.encrypt s.k1 (s.readB ba ^^^ s.readB bb) ^^^ s.readB bb)

/-- R129 with R126: XDEC without a key raises `NoKey`; with one it writes D(K1, C ^ t) ^ t. Nothing else changes. -/
def Obligations.XdecWritesTheEnvelope : Prop :=
  ∀ (bd ba bb : BlockReg) (s : State),
    decode (0x41#8 ++ BitVec.ofNat 3 bd.val ++ BitVec.ofNat 3 ba.val ++ BitVec.ofNat 3 bb.val ++ 0#15) =
      .ok (.xdec bd ba bb) ∧
    (s.keyv = false → ∃ t, exec (.xdec bd ba bb) s = .next t ∧ Raised .noKey
      (0x41#8 ++ BitVec.ofNat 3 bd.val ++ BitVec.ofNat 3 ba.val ++ BitVec.ofNat 3 bb.val ++ 0#15) s t) ∧
    (s.keyv = true →
      ∃ t, exec (.xdec bd ba bb) s = .next t ∧ OnlyBlock bd s t ∧
        t.readB bd = Config.decrypt s.k1 (s.readB ba ^^^ s.readB bb) ^^^ s.readB bb)

/-- R127: under a cipher whose decryption undoes its encryption, `decryptBlock` undoes `encryptBlock`. -/
def Obligations.DecryptBlockUndoesEncryptBlock : Prop :=
  ∀ c : Cipher, CipherInverse c → ∀ (key1 : Key) (t p : Block),
    decryptBlock c key1 t (encryptBlock c key1 t p) = p

/-! ## The data-unit codec -/

/-- DUENC (R144) when the checks of R143 pass: it answers a next state in which only the words
DST..DST+nblk-1 have changed. With `W j` the word SRC+j, `T i` the tweak of position `i` (R113) and
`M = floor(n/128)`, `r = n mod 128`: for `r = 0` output word `i` is encryptBlock(T_i, W_i) (R137); else
the words before the last full one are, the last full word is the combined block under T_M, and the last
word holds the first `r` bits of CC and zeros (R139, R146). Bits of W_M below its first `r` are not read. -/
def Obligations.DuencEncryptsTheDataUnit : Prop :=
  ∀ (ba : BlockReg) (s : State), UnitReady s →
    ∃ t, exec (.duenc ba) s = .next t ∧ OnlyWords s.dst.toNat ((s.len.toNat + 127) / 128) s t ∧
      let enc (i : Nat) (x : Block) : Block :=
        Config.encrypt s.k1 (x ^^^ tweak Config.cipher s.k2 (s.readB ba) i) ^^^
          tweak Config.cipher s.k2 (s.readB ba) i
      let W (j : Nat) : Block := s.dmemWord (s.src.toNat + j)
      let Y (j : Nat) : Block := t.dmemWord (s.dst.toNat + j)
      let M : Nat := s.len.toNat / 128
      let r : Nat := s.len.toNat % 128
      if r = 0 then ∀ i, i < M → Y i = enc i (W i)
      else
        (∀ i, i + 1 < M → Y i = enc i (W i)) ∧
        ∃ PP : Block,
          (∀ b, b < 128 → PP.getLsbD b =
            if 128 - r ≤ b then (W M).getLsbD b else (enc (M - 1) (W (M - 1))).getLsbD b) ∧
          Y (M - 1) = enc M PP ∧
          ∀ b, b < 128 → (Y M).getLsbD b =
            (decide (128 - r ≤ b) && (enc (M - 1) (W (M - 1))).getLsbD b)

/-- DUDEC (R145) when the checks of R143 pass, as DUENC: for `r = 0` output word `i` is
decryptBlock(T_i, W_i) (R138); else PP = decryptBlock(T_M, W_{M-1}), the last full word is
decryptBlock(T_{M-1}, CC) for CC the first `r` bits of W_M then the last bits of PP, and the last word
holds the first `r` bits of PP and zeros (R140, R146). Two points are marked as derived by the spec, not
said by its document: that tweak 0 is made with E and not D (R138), and the order of the output pieces
(R140 step 6). -/
def Obligations.DudecDecryptsTheDataUnit : Prop :=
  ∀ (ba : BlockReg) (s : State), UnitReady s →
    ∃ t, exec (.dudec ba) s = .next t ∧ OnlyWords s.dst.toNat ((s.len.toNat + 127) / 128) s t ∧
      let dec (i : Nat) (x : Block) : Block :=
        Config.decrypt s.k1 (x ^^^ tweak Config.cipher s.k2 (s.readB ba) i) ^^^
          tweak Config.cipher s.k2 (s.readB ba) i
      let W (j : Nat) : Block := s.dmemWord (s.src.toNat + j)
      let Y (j : Nat) : Block := t.dmemWord (s.dst.toNat + j)
      let M : Nat := s.len.toNat / 128
      let r : Nat := s.len.toNat % 128
      if r = 0 then ∀ i, i < M → Y i = dec i (W i)
      else
        (∀ i, i + 1 < M → Y i = dec i (W i)) ∧
        ∃ CC : Block,
          (∀ b, b < 128 → CC.getLsbD b =
            if 128 - r ≤ b then (W M).getLsbD b else (dec M (W (M - 1))).getLsbD b) ∧
          Y (M - 1) = dec (M - 1) CC ∧
          ∀ b, b < 128 → (Y M).getLsbD b =
            (decide (128 - r ≤ b) && (dec M (W (M - 1))).getLsbD b)

/-- R143: the checks of DUENC and DUDEC in their order; the first that fails is raised and nothing else
changes. -/
def Obligations.DataUnitChecksInOrder : Prop :=
  ∀ (ba : BlockReg) (s : State) (i : Instr), i = .duenc ba ∨ i = .dudec ba →
    let n : Nat := s.len.toNat
    let nblk : Nat := (n + 127) / 128
    let SA : Nat := s.src.toNat
    let DA : Nat := s.dst.toNat
    if n < 128 ∨ 2 ^ 20 < nblk then ∃ t, exec i s = .next t ∧ Raised .invalidLength (encode i) s t
    else if s.keyv = false then ∃ t, exec i s = .next t ∧ Raised .noKey (encode i) s t
    else if 2 ^ 21 < SA + nblk ∨ 2 ^ 21 < DA + nblk then
      ∃ t, exec i s = .next t ∧ Raised .addrRange (encode i) s t
    else if SA ≠ DA ∧ SA < DA + nblk ∧ DA < SA + nblk then
      ∃ t, exec i s = .next t ∧ Raised .overlap (encode i) s t
    else ∃ t, exec i s = .next t ∧ OnlyWords DA nblk s t

/-- R136: a length is invalid exactly outside 128 to 134217728. -/
def Obligations.ValidLengthsAreOneToTwoToTheTwentyBlocks : Prop :=
  ∀ s : State, ValidLength s ↔ 128 ≤ s.len.toNat ∧ s.len.toNat ≤ 134217728

/-- R152: under a cipher whose decryption undoes its encryption, decrypting an encrypted data unit gives
it back, for every key, sequence number, and data unit of at least one full block. -/
def Obligations.DecryptUndoesEncrypt : Prop :=
  ∀ c : Cipher, CipherInverse c → ∀ (key1 key2 : Key) (seq : Block) (u : DataUnit),
    1 ≤ u.full.length → u.r < 128 → leading u.r u.part = u.part →
    xtsDecrypt c key1 key2 seq (xtsEncrypt c key1 key2 seq u) = u

/-- R145 with R152 and R147, of the machine's operation over any cipher whose decryption undoes its
encryption: encrypting a data unit, in place or to a disjoint place, and decrypting it in place there
gives the data unit back, its last partial word with zeros after its `r` bits. -/
def Obligations.DataUnitCommandsRoundTrip : Prop :=
  ∀ c : Cipher, CipherInverse c →
    ∀ (key1 key2 : Key) (seq : Block) (w w' : Word) (s : State), UnitReady s →
    ∃ t v, dataUnitCommand w (xtsEncrypt c key1 key2 seq) s = .next t ∧
      dataUnitCommand w' (xtsDecrypt c key1 key2 seq) { t with src := s.dst } = .next v ∧
      (∀ j, j < s.len.toNat / 128 → v.dmemWord (s.dst.toNat + j) = s.dmemWord (s.src.toNat + j)) ∧
      (s.len.toNat % 128 ≠ 0 → ∀ b, b < 128 →
        (v.dmemWord (s.dst.toNat + s.len.toNat / 128)).getLsbD b =
          (decide (128 - s.len.toNat % 128 ≤ b) &&
            (s.dmemWord (s.src.toNat + s.len.toNat / 128)).getLsbD b))

/-- R153: a data unit of exactly one block is one `encryptBlock` with the first tweak, for every sequence
number. -/
def Obligations.OneBlockUnitIsOneEncryptBlock : Prop :=
  ∀ (c : Cipher) (key1 key2 : Key) (seq p : Block),
    xtsEncrypt c key1 key2 seq (DataUnit.ofWords 128 [p]) =
      DataUnit.ofWords 128 [encryptBlock c key1 (tweak0 c key2 seq) p]

/-- R150: the output of a data unit has as many bits as its input, both ways. -/
def Obligations.NoExpansion : Prop :=
  ∀ (c : Cipher) (key1 key2 : Key) (seq : Block) (u : DataUnit), 1 ≤ u.full.length →
    (xtsEncrypt c key1 key2 seq u).bits = u.bits ∧ (xtsDecrypt c key1 key2 seq u).bits = u.bits

/-! ## The whole machine -/

/-- 10_state.md R21, "written by": a step changes a block register only if it is a reset, or a word
written to CMD whose command is LDB, GFMUL, FLIP, TWINIT, TWADV, TWSEEK, XENC or XDEC with that register
as its destination. -/
def Obligations.BlockRegistersAreWrittenOnlyByTheirCommands : Prop :=
  ∀ (s t : State) (r : BlockReg), step s = .next t → t.readB r ≠ s.readB r →
    (∃ rest, s.host = .reset :: rest) ∨
    ∃ w rest i, s.host = .regWrite PortName.cmd.offset w :: rest ∧ decode w = .ok i ∧
      ((∃ a, i = .ldb r a) ∨ (∃ a b, i = .gfmul r a b) ∨ (∃ a, i = .flip r a) ∨ (∃ a, i = .twinit r a) ∨
        (∃ a, i = .twadv r a) ∨ (∃ a b, i = .twseek r a b) ∨ (∃ a b, i = .xenc r a b) ∨
        ∃ a b, i = .xdec r a b)

/-- 10_state.md R22 and R23: K1, K2 and KEYV change only by a successful LDKEY, which sets KEYV, and by
reset. -/
def Obligations.KeysAreWrittenOnlyByLdkeyAndReset : Prop :=
  ∀ s t : State, step s = .next t →
    (t.k1 = s.k1 ∧ t.k2 = s.k2 ∧ t.keyv = s.keyv) ∨
    (∃ rest, s.host = .reset :: rest) ∨
    ∃ rest addr, s.host = .regWrite PortName.cmd.offset (encode (.ldkey addr)) :: rest ∧
      s.fatal = false ∧ s.errcode = 0#8 ∧ s.klen.toNat = 2 * s.kw ∧ t.keyv = true

/-- 10_state.md R35 to R38, register by register: each of LEN, SRC, DST and KLEN changes only by a reset or by
the host's write of that very register, after which it holds the value written; no command writes it. -/
def Obligations.PortRegistersAreWrittenOnlyByTheHost : Prop :=
  ∀ s t : State, step s = .next t →
    (∃ rest, s.host = .reset :: rest) ∨
    ((t.len = s.len ∨ ∃ v rest, s.host = .regWrite PortName.len.offset v :: rest ∧ t.len = v) ∧
      (t.src = s.src ∨ ∃ v rest, s.host = .regWrite PortName.src.offset v :: rest ∧ t.src = v) ∧
      (t.dst = s.dst ∨ ∃ v rest, s.host = .regWrite PortName.dst.offset v :: rest ∧ t.dst = v) ∧
      (t.klen = s.klen ∨ ∃ v rest, s.host = .regWrite PortName.klen.offset v :: rest ∧ t.klen = v))

/-- 20_memory.md R52, R55 with 43_data_unit_codec.md R146: a byte of the data memory reads differently after a step
only if the step is a reset, a host write of its word, or a word written to CMD whose command is STB to
its word, or DUENC or DUDEC with its word in the destination range. -/
def Obligations.DataMemoryIsWrittenOnlyByStores : Prop :=
  ∀ (s t : State) (c : Nat), step s = .next t → t.dmemByte c ≠ s.dmemByte c →
    (∃ rest, s.host = .reset :: rest) ∨
    (∃ rest a v, s.host = .memWrite a v :: rest ∧ c / 16 = a.toNat) ∨
    ∃ w rest i, s.host = .regWrite PortName.cmd.offset w :: rest ∧ decode w = .ok i ∧
      ((∃ b a, i = .stb b a ∧ c / 16 = a.toNat) ∨
        ((∃ b, i = .duenc b ∨ i = .dudec b) ∧ s.dst.toNat ≤ c / 16 ∧
          c / 16 < s.dst.toNat + (s.len.toNat + 127) / 128))

/-- 10_state.md R22 and R23 with 60_exceptions.md R187: no read path reaches the keys. A step reads K1 or K2
only where it runs a keyed command past its key check: a step that is no write of a keyed command's word to
CMD, or one that is but in FATAL, in the error state or with KEYV = 0, does the same whatever the keys are,
to every other register, the data memory and the host's reply. -/
def Obligations.StepsThatRunNoKeyedCommandDoNotReadTheKeys : Prop :=
  ∀ (s : State) (a b : Key),
    (∀ w rest i, s.host = .regWrite PortName.cmd.offset w :: rest → decode w = .ok i →
      s.fatal = false → s.errcode = 0#8 → s.keyv = true →
      i.mnemonic ∉ ["TWINIT", "XENC", "XDEC", "DUENC", "DUDEC"]) →
    ∃ t t', step s = .next t ∧ step { s with k1 := a, k2 := b } = .next t' ∧
      { t' with k1 := t.k1, k2 := t.k2 } = t

/-- 00_scope.md R7, R11, R12: KW and CBLK are parameters, so no step changes them (they stand in State by log 3),
and the host's queue is the host's: a step takes its first action and no command touches the rest. -/
def Obligations.StepsKeepTheParametersAndTheQueue : Prop :=
  ∀ s t : State, step s = .next t → t.params = s.params ∧ t.host = s.host.tail

/-- R181 with R179: after an error, CLRERR gives back the very state before the failed command, so that a
command that fails and is cleared has done nothing: for every command that raises, the state after the
two steps differs from the state before only in the host's queue and reply. -/
def Obligations.ClearedErrorLeavesNoTrace : Prop :=
  ∀ (s t : State) (w : Word) (rest : List HostAction), s.fatal = false → s.errcode = 0#8 → s.errcmd = 0#32 →
    s.host = .regWrite PortName.cmd.offset w :: .regWrite PortName.cmd.offset 0x02000000#32 :: rest →
    step s = .next t → t.errcode ≠ 0#8 → step t = .next (s.taking rest)

/-- R81: the pseudo-instruction MOVB, run as the commands it expands to, copies Ba to Bd and changes nothing
else; TWNEXT expands to TWADV in place. -/
def Obligations.MovbCopiesABlock : Prop :=
  (∀ (bd ba : BlockReg) (s : State), (AsmLine.movb bd ba).commands = [.flip bd ba, .flip bd bd] ∧
    ∃ t u, exec (.flip bd ba) s = .next t ∧ exec (.flip bd bd) t = .next u ∧ u.readB bd = s.readB ba ∧
      OnlyBlock bd s u) ∧
  ∀ bd : BlockReg, (AsmLine.twnext bd).commands = [.twadv bd bd]
end

