-- ==== Sys2Proof/Laws/Blocks.lean ====
section
/-! SUPPORT. Bytes and blocks: what `joinBytes`, `flipEndian`, `splice` and `leading` do bit by bit. -/

namespace Sys2Proof.Machine

theorem joinBytes_getLsbD (f : Nat → Byte) (n i : Nat) (h : i < 8 * n) :
    (joinBytes f n).getLsbD i = (f (n - 1 - i / 8)).getLsbD (i % 8) := by
  induction n generalizing i with
  | zero => omega
  | succ n ih =>
    simp only [joinBytes, BitVec.getLsbD_append]
    by_cases h8 : i < 8
    · simp [h8, Nat.div_eq_of_lt h8, Nat.mod_eq_of_lt h8]
    · have hj : i - 8 < 8 * n := by omega
      have hd : n - 1 - (i - 8) / 8 = n + 1 - 1 - i / 8 := by omega
      have hm : (i - 8) % 8 = i % 8 := by omega
      simp [h8, ih _ hj, hd, hm]

/-- Bit `i` of a block of bytes is bit `i % 8` of byte `15 - i / 8`. -/
theorem blockOfBytes_getLsbD (f : Nat → Byte) (i : Nat) (h : i < 128) :
    (blockOfBytes f).getLsbD i = (f (15 - i / 8)).getLsbD (i % 8) :=
  joinBytes_getLsbD f 16 i h

theorem byte_getLsbD (v : Block) (j i : Nat) :
    (byte v j).getLsbD i = (decide (i < 8) && v.getLsbD (120 - 8 * j + i)) := by
  simp [byte]

/-- Byte `j` of a block of bytes is the `j`-th of them. -/
@[simp] theorem byte_blockOfBytes (f : Nat → Byte) (j : Nat) (h : j < 16) : byte (blockOfBytes f) j = f j := by
  apply BitVec.eq_of_getLsbD_eq
  intro i hi
  have hd : 15 - (120 - 8 * j + i) / 8 = j := by omega
  have hm : (120 - 8 * j + i) % 8 = i := by omega
  rw [byte_getLsbD, blockOfBytes_getLsbD _ _ (by omega), hd, hm]
  simp [hi]

/-- A block is the block of its own bytes. -/
@[simp] theorem blockOfBytes_byte (v : Block) : blockOfBytes (byte v) = v := by
  apply BitVec.eq_of_getLsbD_eq
  intro i hi
  have he : 120 - 8 * (15 - i / 8) + i % 8 = i := by omega
  rw [blockOfBytes_getLsbD _ _ hi, byte_getLsbD, he]
  simp [Nat.mod_lt i (show 0 < 8 by omega)]

/-- Two blocks with the same sixteen bytes are equal. -/
theorem block_ext {v w : Block} (h : ∀ j, j < 16 → byte v j = byte w j) : v = w := by
  apply BitVec.eq_of_getLsbD_eq
  intro i hi
  have he : 120 - 8 * (15 - i / 8) + i % 8 = i := by omega
  have hj : (byte v (15 - i / 8)).getLsbD (i % 8) = (byte w (15 - i / 8)).getLsbD (i % 8) := by
    rw [h (15 - i / 8) (by omega)]
  rw [byte_getLsbD, byte_getLsbD, he] at hj
  simpa [Nat.mod_lt i (show 0 < 8 by omega)] using hj

/-- A block of bytes depends on its sixteen bytes only. -/
theorem blockOfBytes_congr {f g : Nat → Byte} (h : ∀ j, j < 16 → f j = g j) : blockOfBytes f = blockOfBytes g :=
  block_ext fun j hj => by simp [hj, h]

/-- 40_field_arithmetic.md R92, byte by byte. -/
@[simp] theorem byte_flipEndian (v : Block) (j : Nat) (h : j < 16) : byte (flipEndian v) j = byte v (15 - j) := by
  simp [flipEndian, h]

/-- 43_data_unit_codec.md R139 steps 3 and 4, bit by bit. -/
theorem splice_getLsbD (r : Nat) (x y : Block) (i : Nat) (hr : r ≤ 128) (hi : i < 128) :
    (splice r x y).getLsbD i = if i < 128 - r then y.getLsbD i else x.getLsbD i := by
  simp only [splice, BitVec.getLsbD_setWidth, BitVec.getLsbD_append, BitVec.getLsbD_extractLsb', hi,
    decide_true, Bool.true_and, Nat.zero_add]
  by_cases h : i < 128 - r
  · simp [h]
  · have hk : 128 - r + (i - (128 - r)) = i := by omega
    have hl : i - (128 - r) < r := by omega
    simp [h, hk, hl]

/-- The leading bits of a block, bit by bit. -/
theorem leading_getLsbD (r : Nat) (x : Block) (i : Nat) (hr : r ≤ 128) (hi : i < 128) :
    (leading r x).getLsbD i = (decide (128 - r ≤ i) && x.getLsbD i) := by
  rw [leading, splice_getLsbD r x _ i hr hi]
  by_cases h : i < 128 - r
  · have hn : ¬128 - r ≤ i := by omega
    simp [h, hn]
  · have hn : 128 - r ≤ i := by omega
    simp [h, hn]

/-- The leading bits of the leading bits. -/
@[simp] theorem leading_leading (r : Nat) (x : Block) (hr : r ≤ 128) : leading r (leading r x) = leading r x := by
  apply BitVec.eq_of_getLsbD_eq
  intro i hi
  simp only [leading_getLsbD r _ i hr hi]
  cases decide (128 - r ≤ i) <;> simp

end Sys2Proof.Machine
end

