-- ==== Sys2Proof/Laws/State.lean ====
section
/-! SUPPORT. One lemma for each field under each update of the state. -/

namespace Sys2Proof.Machine

namespace State

@[simp] theorem writeB_blocks (s : State) (r : BlockReg) (v : Block) : (s.writeB r v).blocks = s.blocks.set r v := rfl
@[simp] theorem writeB_k1 (s : State) (r : BlockReg) (v : Block) : (s.writeB r v).k1 = s.k1 := rfl
@[simp] theorem writeB_k2 (s : State) (r : BlockReg) (v : Block) : (s.writeB r v).k2 = s.k2 := rfl
@[simp] theorem writeB_keyv (s : State) (r : BlockReg) (v : Block) : (s.writeB r v).keyv = s.keyv := rfl
@[simp] theorem writeB_errcode (s : State) (r : BlockReg) (v : Block) : (s.writeB r v).errcode = s.errcode := rfl
@[simp] theorem writeB_errcmd (s : State) (r : BlockReg) (v : Block) : (s.writeB r v).errcmd = s.errcmd := rfl
@[simp] theorem writeB_fatal (s : State) (r : BlockReg) (v : Block) : (s.writeB r v).fatal = s.fatal := rfl
@[simp] theorem writeB_len (s : State) (r : BlockReg) (v : Block) : (s.writeB r v).len = s.len := rfl
@[simp] theorem writeB_src (s : State) (r : BlockReg) (v : Block) : (s.writeB r v).src = s.src := rfl
@[simp] theorem writeB_dst (s : State) (r : BlockReg) (v : Block) : (s.writeB r v).dst = s.dst := rfl
@[simp] theorem writeB_klen (s : State) (r : BlockReg) (v : Block) : (s.writeB r v).klen = s.klen := rfl
@[simp] theorem writeB_mem (s : State) (r : BlockReg) (v : Block) : (s.writeB r v).mem = s.mem := rfl
@[simp] theorem writeB_params (s : State) (r : BlockReg) (v : Block) : (s.writeB r v).params = s.params := rfl
@[simp] theorem writeB_resets (s : State) (r : BlockReg) (v : Block) : (s.writeB r v).resets = s.resets := rfl
@[simp] theorem writeB_host (s : State) (r : BlockReg) (v : Block) : (s.writeB r v).host = s.host := rfl
@[simp] theorem writeB_reply (s : State) (r : BlockReg) (v : Block) : (s.writeB r v).reply = s.reply := rfl

@[simp] theorem loadKeys_blocks (s : State) (key1 key2 : Key) : (s.loadKeys key1 key2).blocks = s.blocks := rfl
@[simp] theorem loadKeys_k1 (s : State) (key1 key2 : Key) : (s.loadKeys key1 key2).k1 = key1 := rfl
@[simp] theorem loadKeys_k2 (s : State) (key1 key2 : Key) : (s.loadKeys key1 key2).k2 = key2 := rfl
@[simp] theorem loadKeys_keyv (s : State) (key1 key2 : Key) : (s.loadKeys key1 key2).keyv = true := rfl
@[simp] theorem loadKeys_errcode (s : State) (key1 key2 : Key) : (s.loadKeys key1 key2).errcode = s.errcode := rfl
@[simp] theorem loadKeys_errcmd (s : State) (key1 key2 : Key) : (s.loadKeys key1 key2).errcmd = s.errcmd := rfl
@[simp] theorem loadKeys_fatal (s : State) (key1 key2 : Key) : (s.loadKeys key1 key2).fatal = s.fatal := rfl
@[simp] theorem loadKeys_len (s : State) (key1 key2 : Key) : (s.loadKeys key1 key2).len = s.len := rfl
@[simp] theorem loadKeys_src (s : State) (key1 key2 : Key) : (s.loadKeys key1 key2).src = s.src := rfl
@[simp] theorem loadKeys_dst (s : State) (key1 key2 : Key) : (s.loadKeys key1 key2).dst = s.dst := rfl
@[simp] theorem loadKeys_klen (s : State) (key1 key2 : Key) : (s.loadKeys key1 key2).klen = s.klen := rfl
@[simp] theorem loadKeys_mem (s : State) (key1 key2 : Key) : (s.loadKeys key1 key2).mem = s.mem := rfl
@[simp] theorem loadKeys_params (s : State) (key1 key2 : Key) : (s.loadKeys key1 key2).params = s.params := rfl
@[simp] theorem loadKeys_resets (s : State) (key1 key2 : Key) : (s.loadKeys key1 key2).resets = s.resets := rfl
@[simp] theorem loadKeys_host (s : State) (key1 key2 : Key) : (s.loadKeys key1 key2).host = s.host := rfl
@[simp] theorem loadKeys_reply (s : State) (key1 key2 : Key) : (s.loadKeys key1 key2).reply = s.reply := rfl

@[simp] theorem taking_blocks (s : State) (rest : List HostAction) : (s.taking rest).blocks = s.blocks := rfl
@[simp] theorem taking_k1 (s : State) (rest : List HostAction) : (s.taking rest).k1 = s.k1 := rfl
@[simp] theorem taking_k2 (s : State) (rest : List HostAction) : (s.taking rest).k2 = s.k2 := rfl
@[simp] theorem taking_keyv (s : State) (rest : List HostAction) : (s.taking rest).keyv = s.keyv := rfl
@[simp] theorem taking_errcode (s : State) (rest : List HostAction) : (s.taking rest).errcode = s.errcode := rfl
@[simp] theorem taking_errcmd (s : State) (rest : List HostAction) : (s.taking rest).errcmd = s.errcmd := rfl
@[simp] theorem taking_fatal (s : State) (rest : List HostAction) : (s.taking rest).fatal = s.fatal := rfl
@[simp] theorem taking_len (s : State) (rest : List HostAction) : (s.taking rest).len = s.len := rfl
@[simp] theorem taking_src (s : State) (rest : List HostAction) : (s.taking rest).src = s.src := rfl
@[simp] theorem taking_dst (s : State) (rest : List HostAction) : (s.taking rest).dst = s.dst := rfl
@[simp] theorem taking_klen (s : State) (rest : List HostAction) : (s.taking rest).klen = s.klen := rfl
@[simp] theorem taking_mem (s : State) (rest : List HostAction) : (s.taking rest).mem = s.mem := rfl
@[simp] theorem taking_params (s : State) (rest : List HostAction) : (s.taking rest).params = s.params := rfl
@[simp] theorem taking_resets (s : State) (rest : List HostAction) : (s.taking rest).resets = s.resets := rfl
@[simp] theorem taking_host (s : State) (rest : List HostAction) : (s.taking rest).host = rest := rfl
@[simp] theorem taking_reply (s : State) (rest : List HostAction) : (s.taking rest).reply = .nothing := rfl

@[simp] theorem issue_blocks (s : State) (w : Word) : (s.issue w).blocks = s.blocks := rfl
@[simp] theorem issue_k1 (s : State) (w : Word) : (s.issue w).k1 = s.k1 := rfl
@[simp] theorem issue_k2 (s : State) (w : Word) : (s.issue w).k2 = s.k2 := rfl
@[simp] theorem issue_keyv (s : State) (w : Word) : (s.issue w).keyv = s.keyv := rfl
@[simp] theorem issue_errcode (s : State) (w : Word) : (s.issue w).errcode = s.errcode := rfl
@[simp] theorem issue_errcmd (s : State) (w : Word) : (s.issue w).errcmd = s.errcmd := rfl
@[simp] theorem issue_fatal (s : State) (w : Word) : (s.issue w).fatal = s.fatal := rfl
@[simp] theorem issue_len (s : State) (w : Word) : (s.issue w).len = s.len := rfl
@[simp] theorem issue_src (s : State) (w : Word) : (s.issue w).src = s.src := rfl
@[simp] theorem issue_dst (s : State) (w : Word) : (s.issue w).dst = s.dst := rfl
@[simp] theorem issue_klen (s : State) (w : Word) : (s.issue w).klen = s.klen := rfl
@[simp] theorem issue_mem (s : State) (w : Word) : (s.issue w).mem = s.mem := rfl
@[simp] theorem issue_params (s : State) (w : Word) : (s.issue w).params = s.params := rfl
@[simp] theorem issue_resets (s : State) (w : Word) : (s.issue w).resets = s.resets := rfl
@[simp] theorem issue_host (s : State) (w : Word) : (s.issue w).host = .regWrite ⟨0#6⟩ w :: s.host := rfl
@[simp] theorem issue_reply (s : State) (w : Word) : (s.issue w).reply = s.reply := rfl

@[simp] theorem raise_blocks (e : ErrorName) (w : Word) (s : State) : (raise e w s).blocks = s.blocks := rfl
@[simp] theorem raise_k1 (e : ErrorName) (w : Word) (s : State) : (raise e w s).k1 = s.k1 := rfl
@[simp] theorem raise_k2 (e : ErrorName) (w : Word) (s : State) : (raise e w s).k2 = s.k2 := rfl
@[simp] theorem raise_keyv (e : ErrorName) (w : Word) (s : State) : (raise e w s).keyv = s.keyv := rfl
@[simp] theorem raise_errcode (e : ErrorName) (w : Word) (s : State) : (raise e w s).errcode = e.code := rfl
@[simp] theorem raise_errcmd (e : ErrorName) (w : Word) (s : State) : (raise e w s).errcmd = w := rfl
@[simp] theorem raise_fatal (e : ErrorName) (w : Word) (s : State) : (raise e w s).fatal = s.fatal := rfl
@[simp] theorem raise_len (e : ErrorName) (w : Word) (s : State) : (raise e w s).len = s.len := rfl
@[simp] theorem raise_src (e : ErrorName) (w : Word) (s : State) : (raise e w s).src = s.src := rfl
@[simp] theorem raise_dst (e : ErrorName) (w : Word) (s : State) : (raise e w s).dst = s.dst := rfl
@[simp] theorem raise_klen (e : ErrorName) (w : Word) (s : State) : (raise e w s).klen = s.klen := rfl
@[simp] theorem raise_mem (e : ErrorName) (w : Word) (s : State) : (raise e w s).mem = s.mem := rfl
@[simp] theorem raise_params (e : ErrorName) (w : Word) (s : State) : (raise e w s).params = s.params := rfl
@[simp] theorem raise_resets (e : ErrorName) (w : Word) (s : State) : (raise e w s).resets = s.resets := rfl
@[simp] theorem raise_host (e : ErrorName) (w : Word) (s : State) : (raise e w s).host = s.host := rfl
@[simp] theorem raise_reply (e : ErrorName) (w : Word) (s : State) : (raise e w s).reply = s.reply := rfl

@[simp] theorem leaveError_blocks (s : State) : (leaveError s).blocks = s.blocks := by
  unfold leaveError; split <;> rfl
@[simp] theorem leaveError_k1 (s : State) : (leaveError s).k1 = s.k1 := by
  unfold leaveError; split <;> rfl
@[simp] theorem leaveError_k2 (s : State) : (leaveError s).k2 = s.k2 := by
  unfold leaveError; split <;> rfl
@[simp] theorem leaveError_keyv (s : State) : (leaveError s).keyv = s.keyv := by
  unfold leaveError; split <;> rfl
@[simp] theorem leaveError_errcode (s : State) : (leaveError s).errcode = if s.fatal then s.errcode else 0#8 := by
  unfold leaveError; split <;> rfl
@[simp] theorem leaveError_errcmd (s : State) : (leaveError s).errcmd = if s.fatal then s.errcmd else 0#32 := by
  unfold leaveError; split <;> rfl
@[simp] theorem leaveError_fatal (s : State) : (leaveError s).fatal = s.fatal := by
  unfold leaveError; split <;> rfl
@[simp] theorem leaveError_len (s : State) : (leaveError s).len = s.len := by
  unfold leaveError; split <;> rfl
@[simp] theorem leaveError_src (s : State) : (leaveError s).src = s.src := by
  unfold leaveError; split <;> rfl
@[simp] theorem leaveError_dst (s : State) : (leaveError s).dst = s.dst := by
  unfold leaveError; split <;> rfl
@[simp] theorem leaveError_klen (s : State) : (leaveError s).klen = s.klen := by
  unfold leaveError; split <;> rfl
@[simp] theorem leaveError_mem (s : State) : (leaveError s).mem = s.mem := by
  unfold leaveError; split <;> rfl
@[simp] theorem leaveError_params (s : State) : (leaveError s).params = s.params := by
  unfold leaveError; split <;> rfl
@[simp] theorem leaveError_resets (s : State) : (leaveError s).resets = s.resets := by
  unfold leaveError; split <;> rfl
@[simp] theorem leaveError_host (s : State) : (leaveError s).host = s.host := by
  unfold leaveError; split <;> rfl
@[simp] theorem leaveError_reply (s : State) : (leaveError s).reply = s.reply := by
  unfold leaveError; split <;> rfl

@[simp] theorem resetCore_blocks (s : State) : (resetCore s).blocks = Vector.replicate 8 0#128 := rfl
@[simp] theorem resetCore_k1 (s : State) : (resetCore s).k1 = Key.zero s.kw := rfl
@[simp] theorem resetCore_k2 (s : State) : (resetCore s).k2 = Key.zero s.kw := rfl
@[simp] theorem resetCore_keyv (s : State) : (resetCore s).keyv = false := rfl
@[simp] theorem resetCore_errcode (s : State) : (resetCore s).errcode = if s.params.cblk = Config.blockBits then 0#8 else 3#8 := rfl
@[simp] theorem resetCore_errcmd (s : State) : (resetCore s).errcmd = 0#32 := rfl
@[simp] theorem resetCore_fatal (s : State) : (resetCore s).fatal = decide (s.params.cblk ≠ Config.blockBits) := rfl
@[simp] theorem resetCore_len (s : State) : (resetCore s).len = 0#32 := rfl
@[simp] theorem resetCore_src (s : State) : (resetCore s).src = 0#32 := rfl
@[simp] theorem resetCore_dst (s : State) : (resetCore s).dst = 0#32 := rfl
@[simp] theorem resetCore_klen (s : State) : (resetCore s).klen = 0#32 := rfl
@[simp] theorem resetCore_mem (s : State) : (resetCore s).mem = [] := rfl
@[simp] theorem resetCore_params (s : State) : (resetCore s).params = s.params := rfl
@[simp] theorem resetCore_resets (s : State) : (resetCore s).resets = s.resets + 1 := rfl
@[simp] theorem resetCore_host (s : State) : (resetCore s).host = s.host := rfl
@[simp] theorem resetCore_reply (s : State) : (resetCore s).reply = .nothing := rfl

end State

end Sys2Proof.Machine
end

