-- ==== Sys2Proof/Laws/Memory.lean ====
section
/-! SUPPORT. The data memory: a read after a write gives the value written and leaves every other cell alone,
and every operation keeps the canonical form. -/

namespace Sys2Proof.Machine

namespace Memory

@[simp] theorem lookup_nil (a : Nat) : lookup [] a = none := rfl

/-- A read after a write of one cell. -/
theorem lookup_store (m : Memory) (a : Nat) (v : Byte) (c : Nat) :
    (m.store a v).lookup c = if c = a then some v else m.lookup c := by
  induction m with
  | nil => simp [store, lookup]
  | cons e m ih =>
    obtain ⟨d, b⟩ := e
    simp only [store]
    split
    · simp [lookup]
    · split
      · subst_vars; simp only [lookup]; split <;> simp_all
      · simp only [lookup, ih]
        by_cases hd : c = d
        · simp [hd, ‹¬a = d›, eq_comm]
        · simp [hd]

theorem rising_store (m : Memory) (lo a : Nat) (v : Byte) (h : rising lo m = true) (ha : lo ≤ a) :
    rising lo (m.store a v) = true := by
  induction m generalizing lo with
  | nil => simp [store, rising, ha]
  | cons e m ih =>
    obtain ⟨d, b⟩ := e
    simp only [rising, Bool.and_eq_true, decide_eq_true_eq] at h
    simp only [store]
    split
    · simp [rising, ha, h.2]; omega
    · split
      · subst_vars; simp [rising, h.1, h.2]
      · simp [rising, h.1, ih (d + 1) h.2 (by omega)]

theorem all_store (m : Memory) (a : Nat) (v : Byte) (n : Nat) (h : m.all (fun c => c.1 < n) = true) (ha : a < n) :
    (m.store a v).all (fun c => c.1 < n) = true := by
  induction m with
  | nil => simp [store, ha]
  | cons e m ih =>
    obtain ⟨d, b⟩ := e
    simp only [List.all_cons, Bool.and_eq_true, decide_eq_true_eq] at h
    simp only [store]
    split
    · simp [ha, h.1]; simpa using h.2
    · split
      · simp [ha]; simpa using h.2
      · simp [h.1]; simpa using ih h.2

/-- A write of an existing cell keeps the canonical form. -/
theorem wf_store (m : Memory) (a : Nat) (v : Byte) (h : m.wf = true) (ha : a < 16 * Config.dmemWords) :
    (m.store a v).wf = true := by
  simp only [wf, Bool.and_eq_true] at h ⊢
  exact ⟨rising_store m 0 a v h.1 (by omega), all_store m a v _ h.2 ha⟩

theorem lookup_storeBytes (f : Nat → Byte) (n j : Nat) (m : Memory) (a c : Nat) :
    (storeBytes f n j m a).lookup c =
      if a ≤ c ∧ c < a + n then some (f (j + (c - a))) else m.lookup c := by
  induction n generalizing j m a with
  | zero => have : ¬(a ≤ c ∧ c < a + 0) := by omega
            simp only [storeBytes, this, if_false]
  | succ n ih =>
    rw [storeBytes, ih, lookup_store]
    by_cases h1 : a + 1 ≤ c ∧ c < a + 1 + n
    · have h2 : a ≤ c ∧ c < a + (n + 1) := by omega
      have h3 : j + 1 + (c - (a + 1)) = j + (c - a) := by omega
      simp only [h1, h2, h3, and_self, if_true]
    · by_cases h2 : c = a
      · subst h2; simp
      · have h3 : ¬(a ≤ c ∧ c < a + (n + 1)) := by omega
        simp only [h1, h2, h3, if_false]

/-- A cell after a write of word `a`: byte `c - 16 a` of the block inside the word, else as before
(20_memory.md R52). -/
theorem lookup_storeWord (m : Memory) (a : Nat) (v : Block) (c : Nat) :
    (m.storeWord a v).lookup c =
      if 16 * a ≤ c ∧ c < 16 * (a + 1) then some (byte v (c - 16 * a)) else m.lookup c := by
  have he : 16 * a + 16 = 16 * (a + 1) := by omega
  rw [storeWord, lookup_storeBytes, he, Nat.zero_add]

theorem wf_storeBytes (f : Nat → Byte) (n j : Nat) (m : Memory) (a : Nat) (h : m.wf = true)
    (ha : a + n ≤ 16 * Config.dmemWords) : (storeBytes f n j m a).wf = true := by
  induction n generalizing j m a with
  | zero => exact h
  | succ n ih => exact ih (j + 1) _ (a + 1) (wf_store m a _ h (by omega)) (by omega)

/-- A write of an existing word keeps the canonical form. -/
theorem wf_storeWord (m : Memory) (a : Nat) (v : Block) (h : m.wf = true) (ha : a < Config.dmemWords) :
    (m.storeWord a v).wf = true :=
  wf_storeBytes _ _ _ _ _ h (by omega)

end Memory

namespace State

/-- `MemRead` at an address that exists. -/
theorem memRead_of_lt (s : State) {a : Nat} (h : a < Config.dmemWords) : s.memRead a = some (s.dmemWord a) := by
  simp [memRead, h]

/-- `MemWrite` at an address that exists. -/
theorem memWrite_of_lt (s : State) {a : Nat} (v : Block) (h : a < Config.dmemWords) :
    s.memWrite a v = some { s with mem := s.mem.storeWord a v } := by
  simp [memWrite, h]

/-- All `MemWrite` can do: the address exists, and the memory alone changes. -/
theorem memWrite_cases {s t : State} {a : Nat} {v : Block} (h : s.memWrite a v = some t) :
    a < Config.dmemWords ∧ t = { s with mem := s.mem.storeWord a v } := by
  simp only [memWrite] at h
  split at h
  · exact ⟨‹_›, by simpa using h.symm⟩
  · cases h

/-- A cell of the data memory after `MemWrite`. -/
theorem dmemByte_storeWord (s : State) (a : Nat) (v : Block) (c : Nat) :
    State.dmemByte { s with mem := s.mem.storeWord a v } c =
      if 16 * a ≤ c ∧ c < 16 * (a + 1) then byte v (c - 16 * a) else s.dmemByte c := by
  simp only [dmemByte, Memory.lookup_storeWord]
  split <;> rfl

/-- A word of the data memory after `MemWrite` (20_memory.md R52): the value written, or as before. -/
theorem dmemWord_storeWord (s : State) (a : Nat) (v : Block) (b : Nat) :
    State.dmemWord { s with mem := s.mem.storeWord a v } b = if b = a then v else s.dmemWord b := by
  by_cases h : b = a
  · subst h
    simp only [if_true]
    refine block_ext fun j hj => ?_
    have hin : 16 * b ≤ 16 * b + j ∧ 16 * b + j < 16 * (b + 1) := by omega
    have hj' : 16 * b + j - 16 * b = j := by omega
    simp only [dmemWord, byte_blockOfBytes _ j hj, dmemByte_storeWord, hin, and_self, if_true, hj']
  · simp only [h, if_false, dmemWord]
    refine blockOfBytes_congr fun j hj => ?_
    have hout : ¬(16 * a ≤ 16 * b + j ∧ 16 * b + j < 16 * (a + 1)) := by omega
    simp only [dmemByte_storeWord, hout, if_false]

/-- A word reads the same in two states whose memories read the same at its cells. -/
theorem dmemWord_congr {s t : State} {a : Nat} (h : ∀ j, j < 16 → t.dmemByte (16 * a + j) = s.dmemByte (16 * a + j)) :
    t.dmemWord a = s.dmemWord a :=
  blockOfBytes_congr h

end State

end Sys2Proof.Machine
end

