-- ==== Sys2Proof/Laws/Operands.lean ====
section
/-! SUPPORT. The operand forms: what reading and writing a block register and a range of words can do. -/

namespace Sys2Proof.Machine.State

/-- A block register after a write of one. -/
theorem readB_writeB (s : State) (r q : BlockReg) (v : Block) :
    (s.writeB r v).readB q = if q = r then v else s.readB q := by
  simp only [readB, writeB]
  by_cases h : q = r
  · subst h; simp
  · have hv : ¬r.val = q.val := fun e => h (Fin.ext e.symm)
    simp [h, hv]

@[simp] theorem readB_writeB_self (s : State) (r : BlockReg) (v : Block) : (s.writeB r v).readB r = v := by
  simp [readB_writeB]

theorem readB_writeB_ne (s : State) {r q : BlockReg} (v : Block) (h : q ≠ r) :
    (s.writeB r v).readB q = s.readB q := by
  simp [readB_writeB, h]

/-- After reset every block register is zero (10_state.md R42). -/
@[simp] theorem readB_resetCore (s : State) (r : BlockReg) : (resetCore s).readB r = 0#128 := by
  simp [readB]

/-- Reading a range of words that exist: the words, in order. -/
theorem readRange_of_le (s : State) (a n : Nat) (h : a + n ≤ Config.dmemWords) :
    s.readRange a n = some ((List.range n).map fun j => s.dmemWord (a + j)) := by
  induction n generalizing a with
  | zero => rfl
  | succ n ih =>
    rw [readRange, memRead_of_lt s (by omega), ih (a + 1) (by omega), List.range_succ_eq_map]
    have he : ∀ j, a + 1 + j = a + (j + 1) := by omega
    simp [he, Function.comp_def]

/-- Writing blocks to words that exist: nothing but the data memory changes. -/
theorem writeRange_of_le (s : State) (a : Nat) (vs : List Block) (h : a + vs.length ≤ Config.dmemWords) :
    ∃ m, s.writeRange a vs = some { s with mem := m } := by
  induction vs generalizing s a with
  | nil => exact ⟨s.mem, rfl⟩
  | cons v vs ih =>
    rw [List.length_cons] at h
    obtain ⟨m, hm⟩ := ih { s with mem := s.mem.storeWord a v } (a + 1) (by omega)
    exact ⟨m, by rw [writeRange, memWrite_of_lt s v (by omega)]; exact hm⟩

/-- All that writing a range can do: the words exist, nothing but the memory changes, each word of the
range holds its block and every other cell reads as before; the canonical form is kept. -/
theorem writeRange_cases {s t : State} {a : Nat} {vs : List Block} (h : s.writeRange a vs = some t) :
    (vs = [] ∨ a + vs.length ≤ Config.dmemWords) ∧ t = { s with mem := t.mem } ∧
      (∀ c, ¬(16 * a ≤ c ∧ c < 16 * (a + vs.length)) → t.dmemByte c = s.dmemByte c) ∧
      (∀ j (hj : j < vs.length), t.dmemWord (a + j) = vs[j]) ∧ (s.mem.wf = true → t.mem.wf = true) := by
  induction vs generalizing s a with
  | nil => cases h; simp
  | cons v vs ih =>
    simp only [writeRange, Option.bind_eq_some_iff] at h
    obtain ⟨u, hu, ht⟩ := h
    obtain ⟨hlt, rfl⟩ := memWrite_cases hu
    obtain ⟨hle, hmem, hout, hin, hwf⟩ := ih ht
    have hother : ∀ c, ¬(16 * a ≤ c ∧ c < 16 * (a + (vs.length + 1))) → t.dmemByte c = s.dmemByte c := by
      intro c hc
      have h1 : ¬(16 * (a + 1) ≤ c ∧ c < 16 * (a + 1 + vs.length)) := by omega
      have h2 : ¬(16 * a ≤ c ∧ c < 16 * (a + 1)) := by omega
      rw [hout c h1, dmemByte_storeWord, if_neg h2]
    refine ⟨.inr ?_, hmem, hother, ?_, fun hs => hwf (Memory.wf_storeWord s.mem a v hs hlt)⟩
    · rcases hle with rfl | hle
      · simp; omega
      · rw [List.length_cons]; omega
    · intro j hj
      cases j with
      | zero =>
        have hsame : t.dmemWord a = State.dmemWord { s with mem := s.mem.storeWord a v } a := by
          refine dmemWord_congr fun i hi => hout _ ?_
          omega
        rw [Nat.add_zero, hsame, dmemWord_storeWord]; simp
      | succ j =>
        have he : a + (j + 1) = a + 1 + j := by omega
        rw [he, hin j (by simpa using hj)]; rfl

/-- Writing blocks to words that exist answers a state. -/
theorem writeRange_isSome (s : State) (a : Nat) (vs : List Block) (h : a + vs.length ≤ Config.dmemWords) :
    ∃ t, s.writeRange a vs = some t :=
  (s.writeRange_of_le a vs h).imp' _ fun _ hm => hm

end Sys2Proof.Machine.State
end

