-- ==== Sys2Proof/Laws/DataUnit.lean ====
section
/-! SUPPORT. The operations of the data-unit codec and of LDKEY: what each can do, said once. -/

namespace Sys2Proof.Machine

open Sys2Proof.Safety

/-! ## Tweaks and blocks -/

/-- Advancing on is the iterate of `advance`. -/
theorem tweakAfter_eq_iterate (t : Block) (i : Nat) : tweakAfter t i = advance^[i] t := by
  induction i with
  | zero => rfl
  | succ i ih => rw [tweakAfter, ih, Function.iterate_succ_apply']

/-- The tweaks after the next tweak. -/
theorem tweakAfter_advance (t : Block) (i : Nat) : tweakAfter (advance t) i = tweakAfter t (i + 1) := by
  simp only [tweakAfter_eq_iterate, Function.iterate_succ_apply]

@[simp] theorem underTweaks_nil (f : Block → Block → Block) (t : Block) : underTweaks f t [] = [] := rfl

@[simp] theorem underTweaks_length (f : Block → Block → Block) (t : Block) (xs : List Block) :
    (underTweaks f t xs).length = xs.length := by
  induction xs generalizing t with
  | nil => rfl
  | cons x xs ih => simp [underTweaks, ih]

/-- Block `i` goes under tweak `i` (43_data_unit_codec.md R137). -/
theorem underTweaks_getElem (f : Block → Block → Block) (t : Block) (xs : List Block) (i : Nat)
    (h : i < xs.length) :
    (underTweaks f t xs)[i]'(by simpa using h) = f (tweakAfter t i) xs[i] := by
  induction xs generalizing t i with
  | nil => cases h
  | cons x xs ih =>
    cases i with
    | zero => rfl
    | succ i =>
      have hi : i < xs.length := by simpa using h
      simpa only [underTweaks, List.getElem_cons_succ, tweakAfter_advance] using ih (advance t) i hi

/-- A data unit is written as its full blocks, and one more word when it has a partial block. -/
theorem DataUnit.toWords_length (u : DataUnit) :
    u.toWords.length = u.full.length + (if u.r = 0 then 0 else 1) := by
  unfold DataUnit.toWords; split <;> simp

/-- `nblk` in terms of `M` and `r` (43_data_unit_codec.md R142). -/
theorem ceilDiv128_eq (n : Nat) : ceilDiv128 n = n / 128 + (if n % 128 = 0 then 0 else 1) := by
  unfold ceilDiv128; split <;> omega

/-! ## The data-unit commands -/

/-- The checks of R143 all pass exactly when the machine is ready for the command. -/
theorem dataUnitError_eq_none (s : State) : dataUnitError s = none ↔ UnitReady s := by
  unfold dataUnitError UnitReady ValidLength RangesFit InPlaceOrDisjoint Config.maxBlocks Config.dmemWords
  generalize s.unitBits = n
  generalize s.unitBlocks = k
  generalize s.sourceAddress = sa
  generalize s.destAddress = da
  cases s.keyv <;> repeat' split
  all_goals simp_all
  all_goals omega

/-- A data-unit command that a check turns away raises that error, and nothing else happens. -/
theorem dataUnitCommand_of_error {w : Word} {f : DataUnit → DataUnit} {s : State} {e : ErrorName}
    (h : dataUnitError s = some e) : dataUnitCommand w f s = .next (raise e w s) := by
  simp [dataUnitCommand, h]

/-- A data-unit command whose checks pass: where the function answers as many words as it is given, the
command answers a next state in which the destination range holds those words, and nothing else has
changed (R146). -/
theorem dataUnitCommand_of_ready (w : Word) (f : DataUnit → DataUnit) (s : State) (h : UnitReady s)
    (hlen : (f (DataUnit.ofWords s.unitBits
      ((List.range s.unitBlocks).map fun j => s.dmemWord (s.sourceAddress + j)))).toWords.length = s.unitBlocks) :
    ∃ t, dataUnitCommand w f s = .next t ∧ s.writeRange s.destAddress (f (DataUnit.ofWords s.unitBits
      ((List.range s.unitBlocks).map fun j => s.dmemWord (s.sourceAddress + j)))).toWords = some t := by
  obtain ⟨hs, hd⟩ : s.sourceAddress + s.unitBlocks ≤ Config.dmemWords ∧
    s.destAddress + s.unitBlocks ≤ Config.dmemWords := h.2.2.1
  obtain ⟨t, ht⟩ := s.writeRange_isSome s.destAddress _ (hlen.symm ▸ hd)
  refine ⟨t, ?_, ht⟩
  simp only [dataUnitCommand, (dataUnitError_eq_none s).mpr h, State.readRange_of_le s _ _ hs,
    Option.bind_some, ht, orNoSuchWord]

/-! ## The key -/

/-- LDKEY's three outcomes (44_data_movement_and_system.md R163). -/
theorem execLdkey_cases (addr : WordAddr) (s : State) :
    (s.klen.toNat ≠ 2 * s.kw ∧
      execLdkey addr s = .next (raise .invalidKeyMaterial (encode (.ldkey addr)) s)) ∨
    (s.klen.toNat = 2 * s.kw ∧ 2 ^ 21 < addr.toNat + s.keyWords ∧
      execLdkey addr s = .next (raise .addrRange (encode (.ldkey addr)) s)) ∨
    (s.klen.toNat = 2 * s.kw ∧ addr.toNat + s.keyWords ≤ 2 ^ 21 ∧
      execLdkey addr s = .next (s.loadKeys
        (firstSubKey s.kw ((List.range s.keyWords).map fun j => s.dmemWord (addr.toNat + j)))
        (secondSubKey s.kw ((List.range s.keyWords).map fun j => s.dmemWord (addr.toNat + j))))) := by
  unfold execLdkey
  by_cases hk : s.klen.toNat = 2 * s.kw
  · by_cases ha : addr.toNat + s.keyWords ≤ Config.dmemWords
    · refine .inr (.inr ⟨hk, ha, ?_⟩)
      have hn : ¬Config.dmemWords < addr.toNat + s.keyWords := Nat.not_lt.mpr ha
      simp only [hk, ne_eq, not_true, if_false, absoluteAddress, gt_iff_lt, hn, State.readRange_of_le s _ _ ha,
        Option.map_some, orNoSuchWord]
    · have hn : Config.dmemWords < addr.toNat + s.keyWords := Nat.lt_of_not_le ha
      exact .inr (.inl ⟨hk, hn, by
        simp only [hk, ne_eq, not_true, if_false, absoluteAddress, gt_iff_lt, hn, if_true]⟩)
  · exact .inl ⟨hk, by simp only [ne_eq, hk, not_false_iff, if_true]⟩

/-- Bit `b` of the key material, counted from its first bit, is bit `127 - b % 128` of word `b / 128`
(R162). -/
theorem keyMaterial_getLsbD (ws : List Block) (b : Nat) (h : b < 128 * ws.length) :
    (keyMaterial ws).getLsbD (128 * ws.length - 1 - b) = (ws[b / 128]'(by omega)).getLsbD (127 - b % 128) := by
  induction ws generalizing b with
  | nil => simp at h
  | cons w ws ih =>
    rw [List.length_cons] at h
    simp only [keyMaterial, BitVec.getLsbD_cast, BitVec.getLsbD_append, List.length_cons]
    by_cases hb : b < 128
    · have h1 : ¬128 * (ws.length + 1) - 1 - b < 128 * ws.length := by omega
      have h2 : 128 * (ws.length + 1) - 1 - b - 128 * ws.length = 127 - b % 128 := by omega
      have h3 : b / 128 = 0 := by omega
      simp [h1, h2, h3]
    · have h1 : 128 * ws.length - 1 - (b - 128) < 128 * ws.length := by omega
      have h2 : 128 * (ws.length + 1) - 1 - b = 128 * ws.length - 1 - (b - 128) := by omega
      have h3 : b / 128 = (b - 128) / 128 + 1 := by omega
      have h4 : b % 128 = (b - 128) % 128 := by omega
      have h5 := ih (b - 128) (by omega)
      simp only [h2, h1, if_true, h3, h4, List.getElem_cons_succ, h5]

end Sys2Proof.Machine
end

