-- ==== Sys2Proof/Laws/PerInstr.lean ====
section
/-! SUPPORT. Statements about every command as syntax, one lemma for each constructor of Instr. -/

namespace Sys2Proof.Laws

/-- The word of a command selects the row of the opcode map that has its mnemonic (30_encoding.md R76). -/
def EncodedRow.Statement (i : Instr) : Prop :=
  ∃ r ∈ opcodeMap, r.mnemonic = i.mnemonic ∧ r.selects (encode i) = true

/-- A format R word under the mask that keeps its opcode and its fifteen zero bits. -/
theorem encodeR_mask (op : BitVec 8) (bd ba bb : BlockReg) :
    encodeR op bd ba bb &&& 0xFF007FFF#32 = op ++ 0#24 := by
  apply BitVec.eq_of_getLsbD_eq
  intro i hi
  simp only [encodeR, regBits, BitVec.getLsbD_and, BitVec.getLsbD_append]
  interval_cases i <;> simp

/-- A format R word that does not use `bb`. -/
theorem encodeR_mask_bb (op : BitVec 8) (bd ba : BlockReg) :
    encodeR op bd ba 0 &&& 0xFF03FFFF#32 = op ++ 0#24 := by
  apply BitVec.eq_of_getLsbD_eq
  intro i hi
  simp only [encodeR, regBits, BitVec.getLsbD_and, BitVec.getLsbD_append]
  interval_cases i <;> simp

/-- A format R word that uses `ba` only. -/
theorem encodeR_mask_bd_bb (op : BitVec 8) (ba : BlockReg) :
    encodeR op 0 ba 0 &&& 0xFFE3FFFF#32 = op ++ 0#24 := by
  apply BitVec.eq_of_getLsbD_eq
  intro i hi
  simp only [encodeR, regBits, BitVec.getLsbD_and, BitVec.getLsbD_append]
  interval_cases i <;> simp

/-- A format M word under its opcode mask. -/
theorem encodeM_mask (op : BitVec 8) (bd : BlockReg) (addr : WordAddr) :
    encodeM op bd addr &&& 0xFF000000#32 = op ++ 0#24 := by
  apply BitVec.eq_of_getLsbD_eq
  intro i hi
  simp only [encodeM, regBits, BitVec.getLsbD_and, BitVec.getLsbD_append]
  interval_cases i <;> simp

/-- A format M word that does not use `bd`. -/
theorem encodeM_mask_bd (op : BitVec 8) (addr : WordAddr) :
    encodeM op 0 addr &&& 0xFFE00000#32 = op ++ 0#24 := by
  apply BitVec.eq_of_getLsbD_eq
  intro i hi
  simp only [encodeM, regBits, BitVec.getLsbD_and, BitVec.getLsbD_append]
  interval_cases i <;> simp

theorem EncodedRow.nop : EncodedRow.Statement .nop := by unfold EncodedRow.Statement; decide

theorem EncodedRow.clrerr : EncodedRow.Statement .clrerr := by unfold EncodedRow.Statement; decide

theorem EncodedRow.ldb (bd : BlockReg) (addr : WordAddr) : EncodedRow.Statement (.ldb bd addr) :=
  ⟨opcodeMap[2], by simp [opcodeMap], rfl, beq_iff_eq.mpr (encodeM_mask _ bd addr)⟩

theorem EncodedRow.stb (bs : BlockReg) (addr : WordAddr) : EncodedRow.Statement (.stb bs addr) :=
  ⟨opcodeMap[3], by simp [opcodeMap], rfl, beq_iff_eq.mpr (encodeM_mask _ bs addr)⟩

theorem EncodedRow.ldkey (addr : WordAddr) : EncodedRow.Statement (.ldkey addr) :=
  ⟨opcodeMap[4], by simp [opcodeMap], rfl, beq_iff_eq.mpr (encodeM_mask_bd _ addr)⟩

theorem EncodedRow.gfmul (bd ba bb : BlockReg) : EncodedRow.Statement (.gfmul bd ba bb) :=
  ⟨opcodeMap[5], by simp [opcodeMap], rfl, beq_iff_eq.mpr (encodeR_mask _ bd ba bb)⟩

theorem EncodedRow.flip (bd ba : BlockReg) : EncodedRow.Statement (.flip bd ba) :=
  ⟨opcodeMap[6], by simp [opcodeMap], rfl, beq_iff_eq.mpr (encodeR_mask_bb _ bd ba)⟩

theorem EncodedRow.twinit (bd ba : BlockReg) : EncodedRow.Statement (.twinit bd ba) :=
  ⟨opcodeMap[7], by simp [opcodeMap], rfl, beq_iff_eq.mpr (encodeR_mask_bb _ bd ba)⟩

theorem EncodedRow.twadv (bd ba : BlockReg) : EncodedRow.Statement (.twadv bd ba) :=
  ⟨opcodeMap[8], by simp [opcodeMap], rfl, beq_iff_eq.mpr (encodeR_mask_bb _ bd ba)⟩

theorem EncodedRow.twseek (bd ba bb : BlockReg) : EncodedRow.Statement (.twseek bd ba bb) :=
  ⟨opcodeMap[9], by simp [opcodeMap], rfl, beq_iff_eq.mpr (encodeR_mask _ bd ba bb)⟩

theorem EncodedRow.xenc (bd ba bb : BlockReg) : EncodedRow.Statement (.xenc bd ba bb) :=
  ⟨opcodeMap[10], by simp [opcodeMap], rfl, beq_iff_eq.mpr (encodeR_mask _ bd ba bb)⟩

theorem EncodedRow.xdec (bd ba bb : BlockReg) : EncodedRow.Statement (.xdec bd ba bb) :=
  ⟨opcodeMap[11], by simp [opcodeMap], rfl, beq_iff_eq.mpr (encodeR_mask _ bd ba bb)⟩

theorem EncodedRow.duenc (ba : BlockReg) : EncodedRow.Statement (.duenc ba) :=
  ⟨opcodeMap[12], by simp [opcodeMap], rfl, beq_iff_eq.mpr (encodeR_mask_bd_bb _ ba)⟩

theorem EncodedRow.dudec (ba : BlockReg) : EncodedRow.Statement (.dudec ba) :=
  ⟨opcodeMap[13], by simp [opcodeMap], rfl, beq_iff_eq.mpr (encodeR_mask_bd_bb _ ba)⟩

end Sys2Proof.Laws
end

