-- ==== Sys2Proof/Laws/Encoding.lean ====
section
/-! SUPPORT. The fields of an encoded word, and the one row a word selects. -/

namespace Sys2Proof

/-- The bits of a register field are the bits of the word. -/
@[simp] theorem regBits_regField (w : Word) (lo : Nat) : regBits (regField w lo) = w.extractLsb' lo 3 := by
  apply BitVec.eq_of_toNat_eq
  simp [regBits, regField]

@[simp] theorem regBits_zero : regBits 0 = 0#3 := by decide

/-- A register field whose bits are those of a register names it. -/
theorem regField_of_bits {w : Word} {lo : Nat} {r : BlockReg} (h : w.extractLsb' lo 3 = regBits r) :
    regField w lo = r := by
  apply Fin.ext
  change (w.extractLsb' lo 3).toNat = r.val
  rw [h]; simp [regBits]

@[simp] theorem fieldBd_encodeR (op : BitVec 8) (bd ba bb : BlockReg) : fieldBd (encodeR op bd ba bb) = bd := by
  refine regField_of_bits (BitVec.eq_of_getLsbD_eq fun i hi => ?_)
  simp only [encodeR, BitVec.getLsbD_extractLsb', BitVec.getLsbD_append]
  interval_cases i <;> simp

@[simp] theorem fieldBa_encodeR (op : BitVec 8) (bd ba bb : BlockReg) : fieldBa (encodeR op bd ba bb) = ba := by
  refine regField_of_bits (BitVec.eq_of_getLsbD_eq fun i hi => ?_)
  simp only [encodeR, BitVec.getLsbD_extractLsb', BitVec.getLsbD_append]
  interval_cases i <;> simp

@[simp] theorem fieldBb_encodeR (op : BitVec 8) (bd ba bb : BlockReg) : fieldBb (encodeR op bd ba bb) = bb := by
  refine regField_of_bits (BitVec.eq_of_getLsbD_eq fun i hi => ?_)
  simp only [encodeR, BitVec.getLsbD_extractLsb', BitVec.getLsbD_append]
  interval_cases i <;> simp

@[simp] theorem fieldBd_encodeM (op : BitVec 8) (bd : BlockReg) (addr : WordAddr) :
    fieldBd (encodeM op bd addr) = bd := by
  refine regField_of_bits (BitVec.eq_of_getLsbD_eq fun i hi => ?_)
  simp only [encodeM, BitVec.getLsbD_extractLsb', BitVec.getLsbD_append]
  interval_cases i <;> simp

@[simp] theorem fieldAddr_encodeM (op : BitVec 8) (bd : BlockReg) (addr : WordAddr) :
    fieldAddr (encodeM op bd addr) = addr := by
  refine BitVec.eq_of_getLsbD_eq fun i hi => ?_
  simp only [fieldAddr, encodeM, BitVec.getLsbD_extractLsb', BitVec.getLsbD_append]
  simp [hi]

/-- Every mask keeps the opcode (30_encoding.md R70: each mask contains 0xFF000000). -/
theorem fieldOp_mask : ∀ r ∈ opcodeMap, fieldOp r.mask = 0xFF#8 := by
  intro r hr
  simp only [opcodeMap, List.mem_cons, List.not_mem_nil, or_false] at hr
  rcases hr with rfl | rfl | rfl | rfl | rfl | rfl | rfl | rfl | rfl | rfl | rfl | rfl | rfl | rfl <;> decide

/-- A word that selects a row has its opcode. -/
theorem fieldOp_of_selects {w : Word} {r : OpcodeRow} (hr : r ∈ opcodeMap) (h : r.selects w = true) :
    fieldOp w = fieldOp r.pattern := by
  have hp : w &&& r.mask = r.pattern := beq_iff_eq.mp h
  rw [← hp]
  refine BitVec.eq_of_getLsbD_eq fun i hi => ?_
  have hm := congrArg (fun b => b.getLsbD i) (fieldOp_mask r hr)
  simp only [fieldOp, BitVec.getLsbD_extractLsb', BitVec.getLsbD_and] at hm ⊢
  interval_cases i <;> simp_all

/-- The decoder answers the command of a row the word selects (30_encoding.md R76). -/
theorem selects_of_decode {w : Word} {i : Instr} (h : decode w = .ok i) :
    ∃ r ∈ opcodeMap, r.selects w = true ∧ i = r.build w := by
  unfold decode at h
  cases hf : opcodeMap.find? (·.selects w) with
  | none =>
    rw [hf] at h
    simp only at h
    split at h <;> cases h
  | some q =>
    rw [hf] at h
    exact ⟨q, List.mem_of_find?_eq_some hf, by simpa using List.find?_some hf, by cases h; rfl⟩

/-- A word is rejected exactly when it selects no row (30_encoding.md R77). -/
theorem decode_rejects_iff (w : Word) : (∃ e, decode w = .error e) ↔ ∀ r ∈ opcodeMap, w &&& r.mask ≠ r.pattern := by
  unfold decode
  cases hf : opcodeMap.find? (·.selects w) with
  | none =>
    have hn : ∀ r ∈ opcodeMap, w &&& r.mask ≠ r.pattern := by
      simpa [OpcodeRow.selects] using List.find?_eq_none.mp hf
    refine ⟨fun _ => hn, fun _ => ?_⟩
    by_cases ha : (opcodeMap.any fun r => fieldOp r.pattern == fieldOp w) = true
    · exact ⟨.nonZeroField, by simp only [ha, if_true]⟩
    · exact ⟨.unlistedOpcode, by simp only [ha]; rfl⟩
  | some q =>
    have hq : q.selects w = true := by simpa using List.find?_some hf
    refine ⟨fun ⟨e, he⟩ => (by cases he), fun h => ?_⟩
    exact absurd (beq_iff_eq.mp hq) (h q (List.mem_of_find?_eq_some hf))

end Sys2Proof
end

