-- ==== Sys2Proof/Laws/Field.lean ====
section
/-! SUPPORT. Blocks as polynomials over GF(2): what XOR, the shift, the reduction and the multiplier's loop do
to them. -/

namespace Sys2Proof.Machine

open Polynomial Sys2Proof.Safety

/-- Bit `i` of a block is the coefficient of `x^i` (40_field_arithmetic.md R91). -/
theorem poly_coeff (u : Block) (i : Nat) : (poly u).coeff i = if u.getLsbD i then 1 else 0 := by
  have h : ∀ k ∈ Finset.range 128, (if u.getLsbD k then (X : (ZMod 2)[X]) ^ k else 0).coeff i =
      if i = k then (if u.getLsbD k then 1 else 0) else 0 := by
    intro k _
    split <;> simp [coeff_X_pow]
  rw [poly, finsetSum_coeff, Finset.sum_congr rfl h, Finset.sum_ite_eq (Finset.range 128) i]
  by_cases hi : i < 128
  · simp [hi]
  · simp [hi, BitVec.getLsbD_of_ge u i (by omega)]

/-- Blocks with the same polynomial are equal. -/
theorem poly_injective {u v : Block} (h : poly u = poly v) : u = v := by
  apply BitVec.eq_of_getLsbD_eq
  intro i _
  have hc := congrArg (fun p => p.coeff i) h
  simp only [poly_coeff] at hc
  cases hu : u.getLsbD i <;> cases hv : v.getLsbD i <;> simp_all

/-- XOR adds the polynomials (R91). -/
theorem poly_xor (u v : Block) : poly (u ^^^ v) = poly u + poly v := by
  ext i
  rw [coeff_add]
  simp only [poly_coeff, BitVec.getLsbD_xor]
  cases u.getLsbD i <;> cases v.getLsbD i <;> simp
  decide

/-- The polynomial of a block has degree below 128. -/
theorem poly_degree_lt (u : Block) : (poly u).degree < 128 := by
  refine (degree_lt_iff_coeff_zero _ 128).mpr fun i hi => ?_
  rw [poly_coeff, BitVec.getLsbD_of_ge u i hi]
  simp

/-- `x^7 + x^2 + x + 1` has degree below 128. -/
theorem fieldModulus_tail_degree_lt : (X ^ 7 + X ^ 2 + X + 1 : (ZMod 2)[X]).degree < 128 := by
  have h : (X ^ 7 + X ^ 2 + X + 1 : (ZMod 2)[X]).degree ≤ 7 := by compute_degree
  exact lt_of_le_of_lt h (by norm_num)

theorem fieldModulus_eq : fieldModulus = X ^ 128 + (X ^ 7 + X ^ 2 + X + 1) := by
  unfold fieldModulus; ring

theorem fieldModulus_monic : fieldModulus.Monic := by
  rw [fieldModulus_eq]; exact monic_X_pow_add fieldModulus_tail_degree_lt

/-- RED is what x^128 reduces to (R94). -/
theorem poly_RED : poly RED = X ^ 7 + X ^ 2 + X + 1 := by
  ext i
  simp only [coeff_add, coeff_X_pow, coeff_X, coeff_one, poly_coeff, RED]
  by_cases h : i < 8
  · have hs : ∀ i, i < 8 → (if (0x87#128).getLsbD i then (1 : ZMod 2) else 0) =
        (((if i = 7 then 1 else 0) + if i = 2 then 1 else 0) + if 1 = i then 1 else 0) +
          if i = 0 then 1 else 0 := by decide
    exact hs i h
  · have hz : (0x87#128).getLsbD i = false := by
      rw [show (0x87#128) = BitVec.setWidth 128 (0x87#8) by decide, BitVec.getLsbD_setWidth,
        BitVec.getLsbD_of_ge _ i (by omega)]
      simp
    simp [hz, show i ≠ 7 by omega, show i ≠ 2 by omega, show i ≠ 0 by omega, show 1 ≠ i by omega]

/-- A shift by one is a multiplication by x that loses x^128. -/
theorem poly_shiftLeft_one (v : Block) :
    poly (v <<< 1) = if v.getLsbD 127 then X * poly v + X ^ 128 else X * poly v := by
  ext i
  rw [apply_ite (fun p : (ZMod 2)[X] => p.coeff i), coeff_add, coeff_X_pow, poly_coeff]
  cases i with
  | zero => simp
  | succ i =>
    rw [coeff_X_mul, poly_coeff]
    simp only [BitVec.getLsbD_shiftLeft]
    by_cases h : i + 1 < 128
    · simp [h, show i ≠ 127 by omega]
    · by_cases h2 : i = 127
      · subst h2
        cases v.getLsbD 127 <;> simp
        decide
      · simp [h, h2, BitVec.getLsbD_of_ge v i (by omega)]

/-- `timesX` multiplies by x modulo the field's polynomial (R94). -/
theorem poly_timesX (v : Block) : ∃ q, poly (timesX v) = X * poly v + fieldModulus * q := by
  unfold timesX
  split
  · exact ⟨1, by rw [poly_xor, poly_shiftLeft_one, if_pos ‹_›, poly_RED, fieldModulus_eq]; ring⟩
  · exact ⟨0, by rw [poly_shiftLeft_one, if_neg ‹_›]; ring⟩

/-- The loop of R94: after `n` rounds from bit `i` on, `z` has gained `v` times the polynomial of those `n`
bits of `b`, modulo the field's polynomial. -/
theorem poly_multiplyLoop (b : Block) (n i : Nat) (z v : Block) :
    ∃ q, poly (multiplyLoop b n i z v) =
      poly z + (∑ k ∈ Finset.range n, if b.getLsbD (i + k) then X ^ k else 0) * poly v + fieldModulus * q := by
  induction n generalizing i z v with
  | zero => exact ⟨0, by simp [multiplyLoop]⟩
  | succ n ih =>
    obtain ⟨q, h⟩ := ih (i + 1) (if b.getLsbD i then z ^^^ v else z) (timesX v)
    obtain ⟨q', h'⟩ := poly_timesX v
    have hs : (∑ k ∈ Finset.range (n + 1), if b.getLsbD (i + k) then (X : (ZMod 2)[X]) ^ k else 0) =
        (if b.getLsbD i then 1 else 0) +
          X * ∑ k ∈ Finset.range n, if b.getLsbD (i + 1 + k) then X ^ k else 0 := by
      rewrite [Finset.sum_range_succ', add_comm, Finset.mul_sum]
      refine congrArg₂ (· + ·) (by simp) (Finset.sum_congr rfl fun k _ => ?_)
      rw [show i + (k + 1) = i + 1 + k by omega]
      split <;> ring_nf
    refine ⟨q + (∑ k ∈ Finset.range n, if b.getLsbD (i + 1 + k) then X ^ k else 0) * q', ?_⟩
    rw [multiplyLoop, h, h', hs]
    split
    · rw [poly_xor]; ring
    · ring

end Sys2Proof.Machine
end

