-- ==== Sys2Proof/Laws/Step.lean ====
section
/-! SUPPORT. What a step can do, said once: the cases of `step`, of the dispatch of a command word, and of each
meaning. -/

namespace Sys2Proof.Machine

/-- The next state of an outcome is one. -/
@[simp] theorem next_inj (s t : State) :
    (Host.Outcome.next s : Host.Outcome State Fault Refusal) = .next t ↔ s = t :=
  ⟨fun h => by cases h; rfl, fun h => h ▸ rfl⟩

/-- A memory operation answers a next state only by answering one. -/
@[simp] theorem orNoSuchWord_eq_next (o : Option State) (t : State) :
    orNoSuchWord o = .next t ↔ o = some t := by
  cases o <;> simp [orNoSuchWord]

@[simp] theorem withKey_true {w : Word} {s : State} {run : State → Host.Outcome State Fault Refusal}
    (h : s.keyv = true) : withKey w s run = run s := by
  simp [withKey, h]

@[simp] theorem withKey_false {w : Word} {s : State} {run : State → Host.Outcome State Fault Refusal}
    (h : s.keyv = false) : withKey w s run = .next (raise .noKey w s) := by
  simp [withKey, h]

/-! ## The step -/

/-- With nothing to do for the host, nothing happens. -/
theorem step_idle {s : State} (h : s.host = []) : step s = .next s := by
  simp only [step, tick, h]

/-- A step is the host's next action, in the state that has taken it off the queue. -/
theorem step_act {s : State} {a : HostAction} {rest : List HostAction} (h : s.host = a :: rest) :
    step s = hostAct a (s.taking rest) := by
  simp only [step, tick, h]

/-- All a step can be: idle, or the host's next action. -/
theorem step_cases (s : State) :
    (s.host = [] ∧ step s = .next s) ∨
    ∃ a rest, s.host = a :: rest ∧ step s = hostAct a (s.taking rest) := by
  cases h : s.host with
  | nil => exact .inl ⟨rfl, step_idle h⟩
  | cons a rest => exact .inr ⟨a, rest, rfl, step_act h⟩

/-! ## The ports -/

@[simp] theorem portReg_cmd : portReg ⟨0#6⟩ = .cmd := rfl
@[simp] theorem portReg_offset_cmd : portReg PortName.cmd.offset = .cmd := rfl
@[simp] theorem portReg_offset_status : portReg PortName.status.offset = .status := rfl
@[simp] theorem portReg_offset_errcmd : portReg PortName.errcmd.offset = .errcmd := rfl
@[simp] theorem portReg_offset_len : portReg PortName.len.offset = .len := rfl
@[simp] theorem portReg_offset_src : portReg PortName.src.offset = .src := rfl
@[simp] theorem portReg_offset_dst : portReg PortName.dst.offset = .dst := rfl
@[simp] theorem portReg_offset_klen : portReg PortName.klen.offset = .klen := rfl
@[simp] theorem portReg_offset_config : portReg PortName.config.offset = .config := rfl

/-- What stands at every offset of the port (10_state.md R31, R39). -/
theorem portReg_cases (o : PortOffset) :
    (∃ n : PortName, o = n.offset) ∨ (0x20 ≤ o.byteOffset.toNat ∧ portReg o = .empty) := by
  obtain ⟨w⟩ := o
  revert w
  have h : ∀ w : BitVec 6, w ∈ [0#6, 1#6, 2#6, 3#6, 4#6, 5#6, 6#6, 7#6] ∨
      (0x20 ≤ (PortOffset.byteOffset ⟨w⟩).toNat ∧ portReg ⟨w⟩ = .empty) := by decide
  intro w
  refine (h w).imp_left fun hw => ?_
  simp only [List.mem_cons, List.not_mem_nil, or_false] at hw
  rcases hw with rfl | rfl | rfl | rfl | rfl | rfl | rfl | rfl
  exacts [⟨.cmd, rfl⟩, ⟨.status, rfl⟩, ⟨.errcmd, rfl⟩, ⟨.len, rfl⟩, ⟨.src, rfl⟩, ⟨.dst, rfl⟩, ⟨.klen, rfl⟩,
    ⟨.config, rfl⟩]

/-- A write to CMD is the dispatch of its word. -/
theorem hostAct_command (w : Word) (s : State) :
    hostAct (.regWrite PortName.cmd.offset w) s = commandWrite w s := rfl

/-- What a write to any other offset does: it stores in one of the four registers, or nothing. -/
theorem portWrite_cases (o : PortOffset) (v : Word) (s : State) :
    (o = PortName.cmd.offset ∧ portWrite o v s = commandWrite v s) ∨
    (o = PortName.len.offset ∧ portWrite o v s = .next { s with len := v }) ∨
    (o = PortName.src.offset ∧ portWrite o v s = .next { s with src := v }) ∨
    (o = PortName.dst.offset ∧ portWrite o v s = .next { s with dst := v }) ∨
    (o = PortName.klen.offset ∧ portWrite o v s = .next { s with klen := v }) ∨
    portWrite o v s = .next s := by
  rcases portReg_cases o with ⟨n, rfl⟩ | ⟨-, h⟩
  · cases n <;> simp [portWrite]
  · simp [portWrite, h]

/-! ## The dispatch (30_encoding.md R70) -/

theorem commandWrite_fatal {w : Word} {s : State} (h : s.fatal = true) : commandWrite w s = .next s := by
  simp [commandWrite, h]

theorem commandWrite_dropped {w : Word} {s : State} (h : s.errcode ≠ 0#8) (hw : w ≠ 0x02000000#32) :
    commandWrite w s = .next s := by
  simp [commandWrite, h, hw]

theorem commandWrite_clrerr {s : State} (h : s.errcode ≠ 0#8) :
    commandWrite 0x02000000#32 s = .next (leaveError s) := by
  by_cases hf : s.fatal = true <;> simp [commandWrite, h, hf, exec, execClrerr, leaveError]

theorem commandWrite_decoded {w : Word} {s : State} {i : Instr} (hf : s.fatal = false) (he : s.errcode = 0#8)
    (hd : decode w = .ok i) : commandWrite w s = exec i s := by
  simp [commandWrite, hf, he, hd]

theorem commandWrite_illegal {w : Word} {s : State} {e : Illegal} (hf : s.fatal = false) (he : s.errcode = 0#8)
    (hd : decode w = .error e) : commandWrite w s = .next (raise .illegalCommand w s) := by
  simp [commandWrite, hf, he, hd]

/-- All the dispatch can do. -/
theorem commandWrite_cases (w : Word) (s : State) :
    ((s.fatal = true ∨ (s.errcode ≠ 0#8 ∧ w ≠ 0x02000000#32)) ∧ commandWrite w s = .next s) ∨
    (s.fatal = false ∧ s.errcode ≠ 0#8 ∧ w = 0x02000000#32 ∧ commandWrite w s = .next (leaveError s)) ∨
    (s.fatal = false ∧ s.errcode = 0#8 ∧ ∃ i, decode w = .ok i ∧ commandWrite w s = exec i s) ∨
    (s.fatal = false ∧ s.errcode = 0#8 ∧ ∃ e, decode w = .error e ∧
      commandWrite w s = .next (raise .illegalCommand w s)) := by
  by_cases hf : s.fatal = true
  · exact .inl ⟨.inl hf, commandWrite_fatal hf⟩
  · have hf' : s.fatal = false := by simpa using hf
    by_cases he : s.errcode = 0#8
    · cases hd : decode w with
      | ok i => exact .inr (.inr (.inl ⟨hf', he, i, rfl, commandWrite_decoded hf' he hd⟩))
      | error e => exact .inr (.inr (.inr ⟨hf', he, e, rfl, commandWrite_illegal hf' he hd⟩))
    · by_cases hw : w = 0x02000000#32
      · exact .inr (.inl ⟨hf', he, hw, hw ▸ commandWrite_clrerr he⟩)
      · exact .inl ⟨.inr ⟨he, hw⟩, commandWrite_dropped he hw⟩

/-! ## Single words at an address of a command or of the host, which always exists -/

theorem absoluteAddress_lt (addr : WordAddr) : absoluteAddress addr < Config.dmemWords := addr.isLt

theorem execLdb_eq (bd : BlockReg) (addr : WordAddr) (s : State) :
    execLdb bd addr s = .next (s.writeB bd (s.dmemWord addr.toNat)) := by
  rw [execLdb, State.memRead_of_lt s (absoluteAddress_lt addr)]; rfl

theorem execStb_eq (bs : BlockReg) (addr : WordAddr) (s : State) :
    execStb bs addr s = .next { s with mem := s.mem.storeWord addr.toNat (s.readB bs) } := by
  rw [execStb, State.memWrite_of_lt s _ (absoluteAddress_lt addr)]; rfl

theorem hostAct_memWrite (a : WordAddr) (v : Block) (s : State) :
    hostAct (.memWrite a v) s = .next { s with mem := s.mem.storeWord a.toNat v } := by
  rw [hostAct, State.memWrite_of_lt s _ (absoluteAddress_lt a)]; rfl

theorem hostAct_memRead (a : WordAddr) (s : State) :
    hostAct (.memRead a) s = .next { s with reply := .mem (s.dmemWord a.toNat) } := by
  rw [hostAct, State.memRead_of_lt s (absoluteAddress_lt a)]; rfl

end Sys2Proof.Machine
end

