-- ==== Sys2Proof/Laws/Frames.lean ====
section
/-! SUPPORT. The frame of each shared operation: what it leaves alone, in the words of Sys2Proof.Safety. -/

namespace Sys2Proof.Machine

open Sys2Proof.Safety

/-- The data memory reads alike where the written cells and the count of resets are alike. -/
theorem State.dmemByte_congr {s t : State} (hm : t.mem = s.mem) (hr : t.resets = s.resets) (c : Nat) :
    t.dmemByte c = s.dmemByte c := by
  simp only [State.dmemByte, hm, hr]

theorem SameDmem_of_mem {s t : State} (hm : t.mem = s.mem) (hr : t.resets = s.resets) : SameDmem s t :=
  State.dmemByte_congr hm hr

/-- Writing a block register changes that register only. -/
theorem OnlyBlock_writeB (s : State) (bd : BlockReg) (v : Block) : OnlyBlock bd s (s.writeB bd v) :=
  ⟨fun _ h => State.readB_writeB_ne s v h, ⟨rfl, rfl, rfl⟩, ⟨rfl, rfl, rfl⟩, ⟨rfl, rfl, rfl, rfl⟩,
    SameDmem_of_mem rfl rfl, ⟨rfl, rfl, rfl, rfl⟩⟩

/-- Writing a block register twice changes that register only. -/
theorem OnlyBlock_trans {bd : BlockReg} {s t u : State} (h : OnlyBlock bd s t) (k : OnlyBlock bd t u) :
    OnlyBlock bd s u := by
  obtain ⟨h1, ⟨h2, h3, h4⟩, ⟨h5, h6, h7⟩, ⟨h8, h9, h10, h11⟩, h12, ⟨h13, h14, h15, h16⟩⟩ := h
  obtain ⟨k1, ⟨k2, k3, k4⟩, ⟨k5, k6, k7⟩, ⟨k8, k9, k10, k11⟩, k12, ⟨k13, k14, k15, k16⟩⟩ := k
  exact ⟨fun r hr => (k1 r hr).trans (h1 r hr), ⟨k2.trans h2, k3.trans h3, k4.trans h4⟩,
    ⟨k5.trans h5, k6.trans h6, k7.trans h7⟩, ⟨k8.trans h8, k9.trans h9, k10.trans h10, k11.trans h11⟩,
    fun c => (k12 c).trans (h12 c), ⟨k13.trans h13, k14.trans h14, k15.trans h15, k16.trans h16⟩⟩

/-- Loading the keys changes the keys only. -/
theorem OnlyKeys_loadKeys (s : State) (key1 key2 : Key) : OnlyKeys s (s.loadKeys key1 key2) :=
  ⟨fun _ => rfl, ⟨rfl, rfl, rfl⟩, ⟨rfl, rfl, rfl, rfl⟩, SameDmem_of_mem rfl rfl, ⟨rfl, rfl, rfl, rfl⟩⟩

/-- `raise` changes ERRCODE and ERRCMD only (60_exceptions.md R179). -/
theorem Raised_raise (e : ErrorName) (w : Word) (s : State) : Raised e w s (raise e w s) :=
  ⟨rfl, rfl, fun _ => rfl, ⟨rfl, rfl, rfl⟩, rfl, ⟨rfl, rfl, rfl, rfl⟩, SameDmem_of_mem rfl rfl,
    ⟨rfl, rfl, rfl, rfl⟩⟩

/-- Leaving the error state changes ERRCODE and ERRCMD only (60_exceptions.md R181). -/
theorem OnlyErrorRegisters_leaveError (s : State) : OnlyErrorRegisters s (leaveError s) :=
  ⟨fun r => by simp [State.readB], ⟨by simp, by simp, by simp⟩, by simp, ⟨by simp, by simp, by simp, by simp⟩,
    SameDmem_of_mem (by simp) (by simp), ⟨by simp, by simp, by simp, by simp⟩⟩

/-- Changing the data memory's cells in a range of words, and nothing else. -/
theorem OnlyWords_of_mem {s t : State} {a n : Nat} (ht : t = { s with mem := t.mem })
    (hb : SameDmemBut a n s t) : OnlyWords a n s t := by
  refine ⟨fun r => ?_, ⟨?_, ?_, ?_⟩, ⟨?_, ?_, ?_⟩, ⟨?_, ?_, ?_, ?_⟩, hb, ⟨?_, ?_, ?_, ?_⟩⟩
  all_goals rw [ht]
  all_goals rfl

/-- Writing a range of words changes those words only. -/
theorem OnlyWords_writeRange {s t : State} {a : Nat} {vs : List Block} (h : s.writeRange a vs = some t) :
    OnlyWords a vs.length s t :=
  have hc := State.writeRange_cases h
  OnlyWords_of_mem hc.2.1 hc.2.2.1

/-- Writing one word changes that word only. -/
theorem OnlyWords_storeWord (s : State) (a : Nat) (v : Block) :
    OnlyWords a 1 s { s with mem := s.mem.storeWord a v } :=
  OnlyWords_of_mem rfl fun c hc => by
    rw [State.dmemByte_storeWord, if_neg hc]

/-- Taking a host action off the queue changes nothing of the core. -/
theorem SameCore_taking (s : State) (rest : List HostAction) : SameCore s (s.taking rest) :=
  ⟨fun _ => rfl, ⟨rfl, rfl, rfl⟩, ⟨rfl, rfl, rfl⟩, ⟨rfl, rfl, rfl, rfl⟩, SameDmem_of_mem rfl rfl, rfl, rfl⟩

end Sys2Proof.Machine
end

