-- ==== Sys2Proof/Tests/Slice0.lean ====
section
/-! SUPPORT. Tests of the model. Every expected value is copied from spec/95_test_vectors.md (the vector is
named in each comment) or from the worked example of the rule named. -/

namespace Sys2Proof.Tests

-- One theorem at a time: a kernel evaluation that waits for the ones before it would hold a thread of its own.
set_option Elab.async false

open Sys2Proof.Machine

/-! ## Helpers -/

/-- The next state of an outcome, or the state after reset where there is none. -/
def after (o : Host.Outcome State Fault Refusal) : State :=
  match o with
  | .next s => s
  | .fault _ => State.reset
  | .refused _ => State.reset

/-- Whether an outcome is a next state. -/
def isNext (o : Host.Outcome State Fault Refusal) : Bool :=
  match o with
  | .next _ => true
  | .fault _ => false
  | .refused _ => false

/-- The test fixture cipher TOY (95_test_vectors.md section 2). -/
def toy : Cipher where
  encrypt k x := x.rotateLeft 8 + k.bits.setWidth 128
  decrypt k y := (y - k.bits.setWidth 128).rotateRight 8

def key1 : Key := ⟨128, 0x000102030405060708090a0b0c0d0e0f#128⟩
def key2 : Key := ⟨128, 0x101112131415161718191a1b1c1d1e1f#128⟩
def seqNum : Block := 0x0000000000000000000000123456789a#128
def plain0 : Block := 0x00112233445566778899aabbccddeeff#128
def plain1 : Block := 0xfedcba98765432100123456789abcdef#128

/-- Block registers 0, 1, 2, the rest zero. -/
def blocksOf (a b c : Block) : Vector Block 8 := #v[a, b, c, 0, 0, 0, 0, 0]

/-- The reset state with three block registers. -/
def withBlocks (a b c : Block) : State := { State.reset with blocks := blocksOf a b c }

/-- The reset state with the fixture's key loaded and two words of the data memory written. -/
def keyed (a : Nat) (v w : Block) : State :=
  { State.reset with
    k1 := key1, k2 := key2, keyv := true, blocks := blocksOf seqNum 0 0,
    mem := Memory.storeWord (Memory.storeWord [] a v) (a + 1) w }

/-- The reset state in which the host's next action is to write a word to CMD. -/
def issued (w : Word) : State := State.reset.issue w

/-! ## WellFormed: each check refuses an ill-formed term -/

theorem test_reg_refused : wellFormedReg 8 = false ∧ blockReg? 8 = none ∧ blockReg? 7 = some 7 := by decide
theorem test_addr_refused : wellFormedAddr 0x200000 = false ∧ wordAddr? 0x200000 = none
    ∧ wordAddr? 0x1FFFFF = some 0x1FFFFF#21 := by decide
theorem test_offset_refused : portOffset? 0x06 = none ∧ portOffset? 0x100 = none
    ∧ portOffset? 0xFC = some ⟨63#6⟩ := by decide
theorem test_params_refused : Params.wellFormed ⟨0#16, 128#16⟩ = false
    ∧ Params.wellFormed Config.reference = true := by decide

/-! ## Decode: words written out from the encodings of 30_encoding.md R72 to R76 (V30 to V51) -/

theorem test_decode_nop : decode 0x01000000#32 = .ok .nop := by decide
theorem test_decode_clrerr : decode 0x02000000#32 = .ok .clrerr := by decide
theorem test_decode_ldb : decode 0x10600010#32 = .ok (.ldb 3 0x10#21)
    ∧ decode 0x10FFFFFF#32 = .ok (.ldb 7 0x1FFFFF#21) := by decide
theorem test_decode_stb : decode 0x11400020#32 = .ok (.stb 2 0x20#21) := by decide
theorem test_decode_ldkey : decode 0x12000040#32 = .ok (.ldkey 0x40#21) := by decide
theorem test_decode_gfmul : decode 0x20408000#32 = .ok (.gfmul 2 0 1)
    ∧ decode 0x20FF8000#32 = .ok (.gfmul 7 7 7) := by decide
theorem test_decode_flip : decode 0x218C0000#32 = .ok (.flip 4 3) := by decide
theorem test_decode_twinit : decode 0x30400000#32 = .ok (.twinit 2 0) := by decide
theorem test_decode_twadv : decode 0x31440000#32 = .ok (.twadv 2 1) := by decide
theorem test_decode_twseek : decode 0x32458000#32 = .ok (.twseek 2 1 3) := by decide
theorem test_decode_xenc : decode 0x40408000#32 = .ok (.xenc 2 0 1) := by decide
theorem test_decode_xdec : decode 0x41688000#32 = .ok (.xdec 3 2 1) := by decide
theorem test_decode_duenc : decode 0x501C0000#32 = .ok (.duenc 7) := by decide
theorem test_decode_dudec : decode 0x51000000#32 = .ok (.dudec 0) := by decide
/-- V53 to V59: the illegal words, by the clause of R77 they fall under. -/
theorem test_decode_illegal_opcode : decode 0x00000000#32 = .error .unlistedOpcode
    ∧ decode 0xFFFFFFFF#32 = .error .unlistedOpcode ∧ decode 0x42000000#32 = .error .unlistedOpcode := by decide
theorem test_decode_illegal_field : decode 0x01000001#32 = .error .nonZeroField
    ∧ decode 0x21008000#32 = .error .nonZeroField ∧ decode 0x50200000#32 = .error .nonZeroField
    ∧ decode 0x12200000#32 = .error .nonZeroField ∧ decode 0x20000001#32 = .error .nonZeroField := by decide
/-- V50, V35, V48 the other way. -/
theorem test_encode : encode (.duenc 7) = 0x501C0000#32 ∧ encode (.stb 2 0x20#21) = 0x11400020#32
    ∧ encode (.xdec 3 2 1) = 0x41688000#32 := by decide

/-! ## The commands, one step each -/

/-- P1: the store of B2 to word 0x20; its neighbours read as before. -/
theorem test_stb : ((after (exec (.stb 2 0x20#21) (withBlocks 0 0 0x87#128))).dmemWord 0x20) = 0x87#128 := by
  decide +kernel
/-- R160. -/
theorem test_ldb : (after (exec (.ldb 3 0x10#21) (keyed 0x10 plain0 0))).readB 3 = plain0 := by decide +kernel
/-- V89: KW = 128, KLEN = 256. -/
theorem test_ldkey :
    let t := after (exec (.ldkey 0#21) { keyed 0 key1.bits key2.bits with klen := 256#32, k1 := Key.zero 128, keyv := false })
    t.k1 = key1 ∧ t.k2 = key2 ∧ t.keyv = true := by decide +kernel
/-- V90: KW = 256, the first two words joined, then the next two. -/
theorem test_ldkey_wide :
    let s := keyed 0x40 0x000102030405060708090a0b0c0d0e0f#128 0x101112131415161718191a1b1c1d1e1f#128
    let m := Memory.storeWord (Memory.storeWord s.mem 0x42 0x202122232425262728292a2b2c2d2e2f#128) 0x43
      0x303132333435363738393a3b3c3d3e3f#128
    let t := after (exec (.ldkey 0x40#21) { s with mem := m, klen := 512#32, params := ⟨256#16, 128#16⟩ })
    t.k1 = ⟨256, 0x000102030405060708090a0b0c0d0e0f101112131415161718191a1b1c1d1e1f#256⟩
      ∧ t.k2 = ⟨256, 0x202122232425262728292a2b2c2d2e2f303132333435363738393a3b3c3d3e3f#256⟩ := by decide +kernel
/-- V113, and V114 with the destination one of the sources. -/
theorem test_gfmul : (after (exec (.gfmul 2 0 1) (withBlocks (1#128 <<< 127) 2 0))).readB 2 = 0x87#128 := by
  decide +kernel
theorem test_gfmul_in_place :
    (after (exec (.gfmul 0 0 0) (withBlocks (1#128 <<< 127) 0 0))).readB 0 = 0xc0000000000000000000000000001067#128 := by
  decide +kernel
/-- V118, general operands. -/
theorem test_multiply : multiply 0x000102030405060708090a0b0c0d0e0f#128 0xf0e0d0c0b0a090807060504030201000#128
    = 0x047aa201cd7b6b035379f5029a783c00#128 := by decide +kernel
/-- V1 and V101: the document's own example. -/
theorem test_flip : (after (exec (.flip 1 0) (withBlocks seqNum 0 0))).readB 1
    = 0x9a785634120000000000000000000000#128 := by decide +kernel
/-- V107: bits inside a byte keep their order. -/
theorem test_flip_bits : flipEndian 0xaa000000000000000000000000000055#128
    = 0x550000000000000000000000000000aa#128 := by decide +kernel
/-- V170: the first tweak with TOY. -/
theorem test_tweak0 : tweak0 toy key2 seqNum = 0x886746251415161718191a1b1c1d1eb9#128 := by decide +kernel
/-- V86: no key. -/
theorem test_twinit_no_key :
    let t := after (exec (.twinit 1 0) State.reset)
    t.errcode = 5#8 ∧ t.errcmd = 0x30200000#32 ∧ t.readB 1 = 0#128 := by decide +kernel
/-- V152 and V153. -/
theorem test_twadv : (after (exec (.twadv 2 1) (withBlocks 0 0x80#128 0))).readB 2
    = 0x87000000000000000000000000000000#128 := by decide +kernel
theorem test_twadv_both : advance 0xff000000000000000000000000000080#128
    = 0x79010000000000000000000000000000#128 := by decide +kernel
/-- V162, and V139 for the square and multiply. -/
theorem test_twseek :
    (after (exec (.twseek 0 1 2) (withBlocks 0 0x000102030405060708090a0b0c0d0e0f#128 2))).readB 0
    = 0x0004080c1014181c2024282c3034383c#128 := by decide +kernel
theorem test_alphaPow : alphaPowOf 0xfffff#128 = 0x80d7ef7fe9af2fef2a70d37c32ff411f#128 := by decide +kernel
/-- V180 and V184. -/
theorem test_encryptBlock : encryptBlock toy key1 0x886746251415161718191a1b1c1d1eb9#128 plain0
    = 0xfe025e765060708090a0b0c0d0e04a2e#128 := by decide +kernel
theorem test_decryptBlock : decryptBlock toy key1 0x886746251415161718191a1b1c1d1eb9#128 plain0
    = 0xbfef334707592d7d41916dbd89d9ad5b#128 := by decide +kernel
/-- V86 for XENC and XDEC. -/
theorem test_xenc_no_key : (after (exec (.xenc 1 0 0) State.reset)).errcmd = 0x40200000#32 := by decide +kernel
theorem test_xdec_no_key : (after (exec (.xdec 1 0 0) State.reset)).errcmd = 0x41200000#32 := by decide +kernel

/-- LEN, SRC and DST of a data-unit command over the words of `keyed`. -/
def unitOf (len src dst : Word) (v w : Block) : State :=
  { keyed src.toNat v w with len := len, src := src, dst := dst }

/-- V64 as a command (the worked example of R144): ciphertext stealing with `r = 72`. -/
theorem test_duenc_stealing :
    let s := unitOf 200#32 0x100#32 0x200#32 plain0 0xfedcba987654321001ffffffffffffff#128
    let t := after (dataUnitCommand 0x50000000#32 (xtsEncrypt toy key1 key2 seqNum) s)
    t.dmemWord 0x200 = 0x84f8582baa096816aabc34c5deb9560a#128
      ∧ t.dmemWord 0x201 = 0xfe025e76506070809000000000000000#128 := by decide +kernel
/-- V61: two aligned blocks. -/
theorem test_duenc_aligned :
    let t := after (dataUnitCommand 0x50000000#32 (xtsEncrypt toy key1 key2 seqNum)
      (unitOf 256#32 0x100#32 0x200#32 plain0 plain1))
    t.dmemWord 0x200 = 0xfe025e765060708090a0b0c0d0e04a2e#128
      ∧ t.dmemWord 0x201 = 0x84f8582baa09681629486f8aa5c4970a#128 := by decide +kernel
/-- R145's worked example, in place as in P3. -/
theorem test_dudec_stealing :
    let s := unitOf 200#32 0x200#32 0x200#32 0x84f8582baa096816aabc34c5deb9560a#128
      0xfe025e76506070809000000000000000#128
    let t := after (dataUnitCommand 0x51000000#32 (xtsDecrypt toy key1 key2 seqNum) s)
    t.dmemWord 0x200 = plain0 ∧ t.dmemWord 0x201 = 0xfedcba98765432100100000000000000#128 := by decide +kernel
/-- V67: a prefix of two blocks and `r = 1`. -/
theorem test_stealing_prefix :
    (xtsEncrypt toy key1 key2 seqNum (DataUnit.ofWords 385 [plain0, plain1,
      0xa5a5a5a5a5a5a5a55a5a5a5a5a5a5a5a#128, 0x80000000000000000000000000000000#128])).toWords
    = [0xfe025e765060708090a0b0c0d0e04a2e#128, 0x84f8582baa09681629486f8aa5c4970a#128,
      0xc7277a21a3b41b5560c95b6d5fb93496#128, 0#128] := by decide +kernel
/-- V80, V82, V83, V84, V85: the checks of R143 in their order. -/
theorem test_unit_errors :
    let code s := (after (exec (.duenc 0) s)).errcode
    code { State.reset with len := 127#32 } = 1#8
      ∧ code { State.reset with len := 256#32 } = 5#8
      ∧ code (unitOf 0x08000001#32 0#32 0#32 0 0) = 1#8
      ∧ code (unitOf 256#32 0x1FFFFF#32 0#32 0 0) = 6#8
      ∧ code (unitOf 256#32 0x100#32 0x101#32 0 0) = 7#8 := by decide +kernel

/-! ## The dispatch, the ports and reset -/

/-- V53 through the port, and V91: in the error state a word is dropped. -/
theorem test_illegal_word :
    let t := after (step (issued 0x00000000#32))
    t.errcode = 4#8 ∧ t.errcmd = 0#32 ∧ t.host = [] := by decide +kernel
theorem test_dropped :
    let s : State := { issued 0x11000000#32 with errcode := 1#8, errcmd := 0x50000000#32 }
    (after (step s)).mem = [] ∧ (after (step s)).errcmd = 0x50000000#32 := by decide +kernel
/-- V92: CLRERR leaves the error state. -/
theorem test_clrerr :
    let s : State := { issued 0x02000000#32 with errcode := 1#8, errcmd := 0x50000000#32 }
    (after (step s)).errcode = 0#8 ∧ (after (step s)).errcmd = 0#32 := by decide +kernel
/-- V94: a core with a 64-bit cipher drops CLRERR, stores LEN, reads STATUS 0x306 and CONFIG 0x00400080. -/
theorem test_fatal :
    let s := State.afterReset ⟨128#16, 64#16⟩ 0 []
    (after (step (s.issue 0x02000000#32))).errcode = 3#8 ∧ portRead ⟨1#6⟩ s = 0x00000306#32
      ∧ portRead ⟨7#6⟩ s = 0x00400080#32
      ∧ (after (step { s with host := [.regWrite ⟨3#6⟩ 5#32] })).len = 5#32
      ∧ (after (step { s with host := [.reset], len := 5#32 })).status = 0x00000306#32 := by decide +kernel
/-- P4: STATUS with ERRCODE 7 and a key. -/
theorem test_status :
    (after (step { State.reset with errcode := 7#8, keyv := true, host := [.regRead ⟨1#6⟩] })).reply
      = .reg 0x00000703#32 := by decide +kernel
/-- `RM` after `WM` (R55). -/
theorem test_mem_port :
    (after (step (after (step { State.reset with host := [.memWrite 5#21 plain0, .memRead 5#21] })))).reply
      = .mem plain0 := by decide +kernel
/-- The core is idle when the host does nothing, and runs what `withFetchWord` places. -/
theorem test_fetch : step (State.reset.withFetchWord 32 0x01000000) = .next State.reset := rfl
theorem test_decode_table_word : decodeTableWord 32 0x501C0000 = some (.duenc 7) := by decide

/-! ## The assembler (30_encoding.md R80 to R82) -/

/-- `GFMUL B2, B0, B1 ; x`, the pseudo-instruction of V52, and `WR KLEN, 256`. -/
theorem test_assemble :
    assemble? [['G','F','M','U','L',' ','B','2',',',' ','B','0',',','B','1',' ',';','x'],
      ['M','O','V','B',' ','B','5',',',' ','B','1'],
      ['W','R',' ','K','L','E','N',',',' ','2','5','6'],
      ['-','-',' ','n','o','t','e'],
      ['L','D','B',' ','B','3',',','0','x','1','0']]
    = some [.regWrite ⟨0#6⟩ 0x20408000#32, .regWrite ⟨0#6⟩ 0x21A40000#32, .regWrite ⟨0#6⟩ 0x21B40000#32,
      .regWrite ⟨6#6⟩ 256#32, .regWrite ⟨0#6⟩ 0x10600010#32] := by decide +kernel
theorem test_assemble_refused : readLine? ['N','O','P',' ','B','1'] = none
    ∧ readLine? ['L','D','B',' ','B','8',',','0'] = none ∧ readLine? ['W','R',' ','C','M','D',',','0'] = none := by
  decide +kernel

/-! ## Witnesses: for each statement with hypotheses, a state and operands that meet all of them -/

open Sys2Proof.Safety

/-- The reset state with a queue of host actions. -/
def doing (q : List HostAction) : State := { State.reset with host := q }

/-- A FATAL core (a 64-bit cipher) with a queue of host actions. -/
def fatalCore (q : List HostAction) : State := State.afterReset ⟨128#16, 64#16⟩ 0 q

/-- A core with a pending error and a queue of host actions. -/
def failed (q : List HostAction) : State := { doing q with errcode := 4#8, errcmd := 0#32 }

/-- A write of a word to CMD. -/
def cmd (w : Word) : HostAction := .regWrite PortName.cmd.offset w

theorem test_meets_EncodeOfDecodeIsTheWord : decode 0x10FFFFFF#32 = .ok (.ldb 7 0x1FFFFF#21) := by decide
theorem test_meets_AtMostOneRowSelectsAWord : ∃ r ∈ opcodeMap, r.selects 0x20408000#32 = true := by decide
theorem test_meets_StepRunsTheDecodedCommand :
    (doing [cmd 0x20408000#32]).host = cmd 0x20408000#32 :: [] ∧ (doing [cmd 0x20408000#32]).fatal = false ∧
      (doing [cmd 0x20408000#32]).errcode = 0#8 ∧ decode 0x20408000#32 = .ok (.gfmul 2 0 1) := by decide
theorem test_meets_WordWithNoRowIsIllegal :
    (doing [cmd 0#32]).host = cmd 0#32 :: [] ∧ (∀ r ∈ opcodeMap, 0#32 &&& r.mask ≠ r.pattern) ∧
      (doing [cmd 0#32]).fatal = false ∧ (doing [cmd 0#32]).errcode = 0#8 := by decide
theorem test_meets_WordWithNoRowIsIllegal_dropped :
    (failed [cmd 0#32]).host = cmd 0#32 :: [] ∧ (failed [cmd 0#32]).errcode ≠ 0#8 := by decide
theorem test_meets_WordWithNoRowIsIllegal_opcode :
    ∀ r ∈ opcodeMap, (0x42000000#32).extractLsb' 24 8 ≠ r.pattern.extractLsb' 24 8 := by decide
theorem test_meets_WordWithNoRowIsIllegal_field : ∃ r ∈ opcodeMap,
    (0x01000001#32).extractLsb' 24 8 = r.pattern.extractLsb' 24 8 ∧ 0x01000001#32 &&& r.mask ≠ r.pattern := by decide
theorem test_meets_WordsAreDroppedInTheErrorState :
    (fatalCore [cmd 0x02000000#32]).host = cmd 0x02000000#32 :: [] ∧ (fatalCore [cmd 0x02000000#32]).fatal = true ∧
      (failed [cmd 0x01000000#32]).host = cmd 0x01000000#32 :: [] ∧ (failed [cmd 0x01000000#32]).errcode ≠ 0#8 := by
  decide
theorem test_meets_FirstErrorIsKept :
    (failed [cmd 0#32]).errcode ≠ 0#8 ∧ step (failed [cmd 0#32]) = .next (failed []) := ⟨by decide, rfl⟩
theorem test_meets_FirstErrorIsKept_raised : (doing [cmd 0#32]).errcode = 0#8 ∧
    step (doing [cmd 0#32]) = .next (failed []) ∧ (failed []).errcode ≠ 0#8 := ⟨rfl, rfl, by decide⟩
theorem test_inv_fatalCore (q : List HostAction) : Inv (fatalCore q) :=
  ⟨rfl, ⟨rfl, rfl⟩, fun _ => ⟨rfl, rfl⟩, ⟨rfl, fun _ => ⟨rfl, rfl, rfl⟩⟩, .inr (.inr (.inr (.inl ⟨rfl, rfl, rfl⟩)))⟩
theorem test_inv_doing (q : List HostAction) : Inv (doing q) :=
  ⟨rfl, ⟨rfl, rfl⟩, fun _ => ⟨rfl, rfl⟩, ⟨rfl, fun h => absurd h Bool.false_ne_true⟩, .inl ⟨rfl, rfl⟩⟩
theorem test_meets_FatalCoreStaysFatal :
    Inv (fatalCore [cmd 0x02000000#32]) ∧ (fatalCore [cmd 0x02000000#32]).fatal = true ∧
      Sys2Proof.core.run 1 (fatalCore [cmd 0x02000000#32]) = .next (fatalCore []) := ⟨test_inv_fatalCore _, rfl, rfl⟩
theorem test_meets_ResetGivesTheTable :
    (fatalCore [.reset]).host = .reset :: [] ∧ (fatalCore [.reset]).params.cblk ≠ 128#16 ∧
      (doing [.reset]).host = .reset :: [] ∧ (doing [.reset]).params.cblk = 128#16 := by decide
theorem test_meets_EveryStepKeepsTheInvariant :
    Inv (doing [cmd 0#32]) ∧ step (doing [cmd 0#32]) = .next (failed []) := ⟨test_inv_doing _, rfl⟩
theorem test_meets_StatusReadsItsFields :
    (fatalCore [.regRead PortName.status.offset]).host = .regRead PortName.status.offset :: [] ∧
      Inv (fatalCore [.regRead PortName.status.offset]) ∧ (fatalCore [.regRead PortName.status.offset]).fatal = true :=
  ⟨rfl, test_inv_fatalCore _, rfl⟩
/-- The queues of the port and memory statements. -/
theorem test_meets_port_and_memory_statements :
    ∀ a ∈ [HostAction.regRead PortName.cmd.offset, .regRead PortName.config.offset, .regRead PortName.errcmd.offset,
        .regRead PortName.len.offset, .regRead PortName.src.offset, .regRead PortName.dst.offset,
        .regRead PortName.klen.offset, .regWrite PortName.status.offset 1#32, .regWrite PortName.config.offset 1#32,
        .regWrite PortName.errcmd.offset 1#32, .regWrite PortName.len.offset 1#32, .regWrite PortName.src.offset 1#32,
        .regWrite PortName.dst.offset 1#32, .regWrite PortName.klen.offset 1#32, .memRead 0x1FFFFF#21,
        .memWrite 0x1FFFFF#21 1#128, cmd 0x01000000#32, cmd 0x02000000#32],
      ∀ b ∈ [HostAction.memRead 0x1FFFFF#21], (doing [a, b]).host = a :: b :: [] := by decide
theorem test_meets_UnusedOffsetsReadZero :
    0x20 ≤ (PortOffset.byteOffset ⟨8#6⟩).toNat ∧ 0x20 ≤ (PortOffset.byteOffset ⟨63#6⟩).toNat ∧
      (doing [.regRead ⟨8#6⟩]).host = .regRead ⟨8#6⟩ :: [] ∧
      (doing [.regWrite ⟨63#6⟩ 1#32]).host = .regWrite ⟨63#6⟩ 1#32 :: [] := by decide
theorem test_meets_ClrerrLeavesTheErrorState : (fatalCore []).fatal = true ∧ (failed []).fatal = false ∧
    (doing []).errcode = 0#8 ∧ (doing []).errcmd = 0#32 := by decide
/-- The last address that holds the whole key, and the next one, KW = 128. -/
theorem test_meets_Ldkey : (256#32).toNat = 2 * State.reset.kw ∧ (255#32).toNat ≠ 2 * State.reset.kw ∧
    (0x1FFFFE#21).toNat + (2 * State.reset.kw + 127) / 128 ≤ 2 ^ 21 ∧
    2 ^ 21 < (0x1FFFFF#21).toNat + (2 * State.reset.kw + 127) / 128 := by decide
theorem test_meets_NoZeroDivisors : multiply 5#128 0#128 = 0#128 := by decide +kernel
theorem test_meets_keyed_commands : (keyed 0 0 0).keyv = true ∧ State.reset.keyv = false := by decide +kernel
/-- Both sides of the equivalence, and the second clause: a first tweak that is not zero, and one that is. -/
theorem test_meets_TweaksAreDistinct : tweak0 toy key2 seqNum ≠ 0#128 ∧
    tweak0 ⟨fun _ _ => 0#128, fun _ _ => 0#128⟩ key2 seqNum = 0#128 ∧ 0 < 2 ^ 20 - 1 ∧ 2 ^ 20 - 1 < 2 ^ 20 := by
  decide +kernel
/-- A cipher whose decryption undoes its encryption: XOR with the key. -/
def xorCipher : Cipher where
  encrypt k x := x ^^^ k.bits.setWidth 128
  decrypt k x := x ^^^ k.bits.setWidth 128
theorem test_meets_CipherInverse : CipherInverse xorCipher := fun k x => by
  simp [xorCipher]
theorem test_meets_TweaksAreDistinct_permutation : Function.Bijective (xorCipher.encrypt key2) :=
  Function.Involutive.bijective fun x => by simp [xorCipher]
/-- The shortest unit, in place; a partial block; the longest unit, source and destination side by side; the
last words of the data memory. -/
theorem test_meets_UnitReady :
    UnitReady (unitOf 128#32 0x100#32 0x100#32 0 0) ∧ UnitReady (unitOf 255#32 0x100#32 0x102#32 0 0) ∧
      UnitReady (unitOf 0x08000000#32 0#32 0x100000#32 0 0) ∧ UnitReady (unitOf 129#32 0x1FFFFE#32 0#32 0 0) := by
  simp only [← dataUnitError_eq_none]
  decide +kernel
/-- Each clause of the checks at the edge of its range: one bit short and one block too long; no key; each
address one word too far; an overlap by one word from either side; and a unit that passes. -/
theorem test_meets_DataUnitChecksInOrder :
    dataUnitError (unitOf 127#32 0#32 0#32 0 0) = some .invalidLength ∧
      dataUnitError (unitOf 0x08000001#32 0#32 0#32 0 0) = some .invalidLength ∧
      dataUnitError { State.reset with len := 128#32 } = some .noKey ∧
      dataUnitError (unitOf 129#32 0x1FFFFF#32 0#32 0 0) = some .addrRange ∧
      dataUnitError (unitOf 129#32 0#32 0x1FFFFF#32 0 0) = some .addrRange ∧
      dataUnitError (unitOf 256#32 0x100#32 0x101#32 0 0) = some .overlap ∧
      dataUnitError (unitOf 256#32 0x101#32 0x100#32 0 0) = some .overlap ∧
      dataUnitError (unitOf 256#32 0x100#32 0x102#32 0 0) = none := by decide +kernel
theorem test_meets_DecryptUndoesEncrypt :
    1 ≤ (DataUnit.mk [plain0] 127 (leading 127 plain1)).full.length ∧ 127 < 128 ∧
      leading 127 (leading 127 plain1) = leading 127 plain1 ∧ leading 1 (leading 1 plain1) = leading 1 plain1 ∧
      leading 0 0#128 = 0#128 := by decide +kernel
theorem test_meets_BlockRegistersAreWritten :
    let s : State := { withBlocks seqNum 0 0 with host := [cmd 0x21200000#32] }
    isNext (step s) = true ∧ (after (step s)).readB 1 ≠ s.readB 1 := by decide +kernel
theorem test_meets_DataMemoryIsWritten :
    let s : State := { keyed 0x10 plain0 0 with host := [cmd 0x11200010#32] }
    isNext (step s) = true ∧ (after (step s)).dmemByte 0x101 ≠ s.dmemByte 0x101 := by decide +kernel
/-- The whole-machine statements about any step. -/
theorem test_meets_any_step : step (doing [cmd 0x01000000#32]) = .next (doing []) := rfl
theorem test_meets_StepsThatRunNoKeyedCommand : ∀ w rest i, (doing [cmd 0x01000000#32]).host = cmd w :: rest →
    decode w = .ok i → (doing [cmd 0x01000000#32]).fatal = false → (doing [cmd 0x01000000#32]).errcode = 0#8 →
    (doing [cmd 0x01000000#32]).keyv = true → i.mnemonic ∉ ["TWINIT", "XENC", "XDEC", "DUENC", "DUDEC"] := by
  intro w rest i h hd _ _ _
  cases h
  rw [test_decode_nop] at hd
  cases hd
  decide
/-- The hypothesis with a keyed command: TWINIT without a key. -/
theorem test_meets_StepsThatRunNoKeyedCommand_noKey : ∀ w rest i,
    (doing [cmd 0x30200000#32]).host = cmd w :: rest → decode w = .ok i → (doing [cmd 0x30200000#32]).fatal = false →
    (doing [cmd 0x30200000#32]).errcode = 0#8 → (doing [cmd 0x30200000#32]).keyv = true →
    i.mnemonic ∉ ["TWINIT", "XENC", "XDEC", "DUENC", "DUDEC"] :=
  fun _ _ _ _ _ _ _ hk => absurd hk Bool.false_ne_true
theorem test_meets_ClearedErrorLeavesNoTrace :
    let s := doing [cmd 0#32, cmd 0x02000000#32]
    s.fatal = false ∧ s.errcode = 0#8 ∧ s.errcmd = 0#32 ∧ s.host = cmd 0#32 :: cmd 0x02000000#32 :: [] ∧
      step s = .next (failed [cmd 0x02000000#32]) ∧ (failed [cmd 0x02000000#32]).errcode ≠ 0#8 :=
  ⟨rfl, rfl, rfl, rfl, rfl, by decide⟩

end Sys2Proof.Tests
end

section
/-! PROOF. What a command can do to the state, said once; that no step changes the parameters; and the statements
about CONFIG and the unused offsets of the register port. -/

namespace Sys2Proof.Machine

/-! ## What a command can do to the state -/

/-- The updates of the state that a command with the word `w` can make: every meaning is one of them. -/
inductive CommandEffect (w : Word) (s : State) : State → Prop where
  | unchanged : CommandEffect w s s
  | leavesError : CommandEffect w s (leaveError s)
  | raises (e : ErrorName) : CommandEffect w s (raise e w s)
  | writesBlock (bd : BlockReg) (v : Block) : CommandEffect w s (s.writeB bd v)
  | loadsKeys (key1 key2 : Key) : CommandEffect w s (s.loadKeys key1 key2)
  | writesRange {t : State} (a : Nat) (vs : List Block) (h : s.writeRange a vs = some t) : CommandEffect w s t

/-- A keyed command that computes a block raises `NoKey` or writes the block (10_state.md R23). -/
theorem withKey_effect {w : Word} {s t : State} {bd : BlockReg} {f : State → Block}
    (h : withKey w s (fun s => .next (s.writeB bd (f s))) = .next t) : CommandEffect w s t := by
  cases hk : s.keyv with
  | false =>
    rw [withKey_false hk] at h
    cases h
    exact .raises _
  | true =>
    rw [withKey_true hk] at h
    cases h
    exact .writesBlock _ _

/-- A data-unit command raises the error of a check or writes a range of words
(43_data_unit_codec.md R143, R146). -/
theorem dataUnitCommand_effect {w : Word} {f : DataUnit → DataUnit} {s t : State}
    (h : dataUnitCommand w f s = .next t) : CommandEffect w s t := by
  cases he : dataUnitError s with
  | some e =>
    rw [dataUnitCommand_of_error he] at h
    cases h
    exact .raises _
  | none =>
    simp only [dataUnitCommand, he, orNoSuchWord_eq_next, Option.bind_eq_some_iff] at h
    obtain ⟨_, -, hw⟩ := h
    exact .writesRange _ _ hw

/-- LDKEY raises an error of its own or loads the keys (44_data_movement_and_system.md R163). -/
theorem execLdkey_effect {addr : WordAddr} {s t : State} (h : execLdkey addr s = .next t) :
    CommandEffect (encode (.ldkey addr)) s t := by
  rcases execLdkey_cases addr s with ⟨-, he⟩ | ⟨-, -, he⟩ | ⟨-, -, he⟩
  · cases he.symm.trans h; exact .raises _
  · cases he.symm.trans h; exact .raises _
  · cases he.symm.trans h; exact .loadsKeys _ _

/-- Every command makes one of the updates, with its own word where it raises an error. -/
theorem exec_effect {i : Instr} {s t : State} (h : exec i s = .next t) : CommandEffect (encode i) s t := by
  cases i with
  | nop => cases h; exact .unchanged
  | clrerr => cases h; exact .leavesError
  | ldb bd addr => cases (execLdb_eq bd addr s).symm.trans h; exact .writesBlock _ _
  | stb bs addr =>
    exact .writesRange addr.toNat [s.readB bs] <| by
      simpa [State.writeRange, State.memWrite_of_lt s _ addr.isLt] using (execStb_eq bs addr s).symm.trans h
  | ldkey addr => exact execLdkey_effect h
  | gfmul bd ba bb => cases h; exact .writesBlock _ _
  | flip bd ba => cases h; exact .writesBlock _ _
  | twinit bd ba => simp only [exec, execTwinit] at h; exact withKey_effect h
  | twadv bd ba => cases h; exact .writesBlock _ _
  | twseek bd ba bb => cases h; exact .writesBlock _ _
  | xenc bd ba bb => simp only [exec, execXenc] at h; exact withKey_effect h
  | xdec bd ba bb => simp only [exec, execXdec] at h; exact withKey_effect h
  | duenc ba => exact dataUnitCommand_effect h
  | dudec ba => exact dataUnitCommand_effect h

/-! ## The parameters are constant (log 3) -/

/-- Writing a range of words leaves the parameters. -/
theorem writeRange_params {s t : State} {a : Nat} {vs : List Block} (h : s.writeRange a vs = some t) :
    t.params = s.params := by
  obtain ⟨-, hmem, -⟩ := State.writeRange_cases h
  rw [hmem]

/-- No update that a command can make changes the parameters. -/
theorem CommandEffect.params_eq {w : Word} {s t : State} (h : CommandEffect w s t) : t.params = s.params := by
  cases h with
  | unchanged => rfl
  | leavesError => exact State.leaveError_params s
  | raises e => exact State.raise_params e w s
  | writesBlock bd v => exact State.writeB_params s bd v
  | loadsKeys key1 key2 => exact State.loadKeys_params s key1 key2
  | writesRange a vs h => exact writeRange_params h

/-- The dispatch of a word leaves the parameters, whether it drops, executes or rejects the word. -/
theorem commandWrite_params {w : Word} {s t : State} (h : commandWrite w s = .next t) : t.params = s.params := by
  rcases commandWrite_cases w s with ⟨-, hc⟩ | ⟨-, -, -, hc⟩ | ⟨-, -, i, -, hc⟩ | ⟨-, -, e, -, hc⟩ <;> rw [hc] at h
  · cases h; rfl
  · cases h; exact State.leaveError_params s
  · exact (exec_effect h).params_eq
  · cases h; exact State.raise_params _ w s

/-- A write to the register port leaves the parameters: CMD is the dispatch, every other offset stores in one
of four registers or nowhere. -/
theorem portWrite_params {o : PortOffset} {v : Word} {s t : State} (h : portWrite o v s = .next t) :
    t.params = s.params := by
  rcases portWrite_cases o v s with ⟨-, hc⟩ | hc
  · exact commandWrite_params (hc.symm.trans h)
  · rcases hc with ⟨-, hc⟩ | ⟨-, hc⟩ | ⟨-, hc⟩ | ⟨-, hc⟩ | hc <;> cases hc.symm.trans h <;> rfl

/-- No host action changes the parameters, reset included (10_state.md R42). -/
theorem hostAct_params {a : HostAction} {s t : State} (h : hostAct a s = .next t) : t.params = s.params := by
  cases a with
  | regWrite o v => exact portWrite_params h
  | regRead o => cases h; rfl
  | memWrite a v => cases (hostAct_memWrite a v s).symm.trans h; rfl
  | memRead a => cases (hostAct_memRead a s).symm.trans h; rfl
  | reset => cases h; exact State.resetCore_params s

/-- No step changes the parameters. -/
theorem step_params {s t : State} (h : step s = .next t) : t.params = s.params := by
  rcases step_cases s with ⟨-, hs⟩ | ⟨a, rest, -, hs⟩
  · cases hs.symm.trans h; rfl
  · exact (hostAct_params (hs.symm.trans h)).trans (s.taking_params rest)

/-! ## CONFIG, a view of the parameters (10_state.md R41) -/

/-- CONFIG depends on the parameters only. -/
theorem State.config_congr {s t : State} (h : t.params = s.params) : t.config = s.config := by
  simp only [State.config, h]

/-- Bits 15:0 of CONFIG are KW. -/
theorem State.config_low (s : State) : s.config.extractLsb' 0 16 = s.params.kw :=
  BitVec.extractLsb'_append_eq_right

/-- Bits 31:16 of CONFIG are CBLK. -/
theorem State.config_high (s : State) : s.config.extractLsb' 16 16 = s.params.cblk :=
  BitVec.extractLsb'_append_eq_left

/-! ## The register port, one action at a time -/

/-- A register read replies what the port reads and changes nothing of the core (10_state.md R30). -/
theorem step_regRead {s : State} {o : PortOffset} {rest : List HostAction} (h : s.host = .regRead o :: rest) :
    step s = .next { s.taking rest with reply := .reg (portRead o (s.taking rest)) } :=
  step_act h

/-- A register write is the port's write in the state that has taken the action off the queue. -/
theorem step_regWrite {s : State} {o : PortOffset} {v : Word} {rest : List HostAction}
    (h : s.host = .regWrite o v :: rest) : step s = portWrite o v (s.taking rest) :=
  step_act h

/-- CONFIG's offset reads CONFIG. -/
theorem portRead_config (s : State) : portRead PortName.config.offset s = s.config := by
  simp only [portRead, portReg_offset_config]

/-- CONFIG is read-only. -/
theorem portWrite_config (v : Word) (s : State) : portWrite PortName.config.offset v s = .next s := by
  simp only [portWrite, portReg_offset_config]

/-- Every named register stands below offset 0x20 (10_state.md R31). -/
theorem PortName.offset_lt (n : PortName) : n.offset.byteOffset.toNat < 0x20 := by
  cases n <;> decide

/-- From offset 0x20 up there is no register (10_state.md R39). -/
theorem portReg_of_ge {o : PortOffset} (h : 0x20 ≤ o.byteOffset.toNat) : portReg o = .empty := by
  rcases portReg_cases o with ⟨n, rfl⟩ | ⟨-, he⟩
  · exact absurd n.offset_lt (Nat.not_lt.mpr h)
  · exact he

/-- An offset with no register reads 0. -/
theorem portRead_empty {o : PortOffset} (h : portReg o = .empty) (s : State) : portRead o s = 0#32 := by
  simp only [portRead, h]

/-- A write to an offset with no register is ignored. -/
theorem portWrite_empty {o : PortOffset} (h : portReg o = .empty) (v : Word) (s : State) :
    portWrite o v s = .next s := by
  simp only [portWrite, h]

/-! ## The statements -/

/-- Settles O15: CONFIG is a view of the parameters, which no step changes (`step_params`), and its offset is
read-only. -/
theorem configReadsTheParameters : Obligations.ConfigReadsTheParameters := by
  refine ⟨fun s t h => State.config_congr (step_params h), fun s rest => ⟨fun h => ?_, fun v h => ?_⟩⟩
  · refine ⟨s.config, ?_, s.config_low, s.config_high⟩
    rw [step_regRead h, portRead_config, State.config_congr (s.taking_params rest)]
  · rw [step_regWrite h, portWrite_config]

/-- Settles O16: no register stands at an offset from 0x20 up (`portReg_of_ge`). -/
theorem unusedOffsetsReadZero : Obligations.UnusedOffsetsReadZero := by
  intro s rest o ho
  refine ⟨fun h => ?_, fun v h => ?_⟩
  · rw [step_regRead h, portRead_empty (portReg_of_ge ho)]
  · rw [step_regWrite h, portWrite_empty (portReg_of_ge ho)]

end Sys2Proof.Machine
end

section
/-! PROOF. A word with no row (30_encoding.md R77), and the pseudo-instructions MOVB and TWNEXT (R81). -/

namespace Sys2Proof.Machine

/-! ## Rows and opcodes -/

/-- No two rows have the same opcode (30_encoding.md R76). -/
theorem opcodeMap_opcodes_nodup : (opcodeMap.map fun r => fieldOp r.pattern).Nodup := by
  decide

/-- A row is found by its opcode. -/
theorem row_eq_of_fieldOp {r q : OpcodeRow} (hr : r ∈ opcodeMap) (hq : q ∈ opcodeMap)
    (h : fieldOp r.pattern = fieldOp q.pattern) : r = q :=
  List.inj_on_of_nodup_map opcodeMap_opcodes_nodup hr hq h

/-- R77(a): a word whose opcode no row has matches no row. -/
theorem no_row_of_unlisted_opcode {w : Word} (h : ∀ r ∈ opcodeMap, fieldOp w ≠ fieldOp r.pattern) :
    ∀ r ∈ opcodeMap, w &&& r.mask ≠ r.pattern :=
  fun r hr hw => h r hr (fieldOp_of_selects hr (beq_iff_eq.mpr hw))

/-- R77(b), (c): a word with the opcode of a row that it does not match matches no row, since any row it
matches has that opcode too. -/
theorem no_row_of_wrong_field {w : Word} {r : OpcodeRow} (hr : r ∈ opcodeMap)
    (hop : fieldOp w = fieldOp r.pattern) (hw : w &&& r.mask ≠ r.pattern) :
    ∀ q ∈ opcodeMap, w &&& q.mask ≠ q.pattern := by
  intro q hq hm
  have hopq : fieldOp w = fieldOp q.pattern := fieldOp_of_selects hq (beq_iff_eq.mpr hm)
  have hrq : r = q := row_eq_of_fieldOp hr hq (hop.symm.trans hopq)
  exact hw (hrq ▸ hm)

/-- The word of CLRERR matches a row. -/
theorem ne_clrerr_of_no_row {w : Word} (h : ∀ r ∈ opcodeMap, w &&& r.mask ≠ r.pattern) : w ≠ 0x02000000#32 := by
  rintro rfl
  exact h opcodeMap[1] (List.getElem_mem _) rfl

/-! ## A write to CMD -/

/-- A write to CMD is the dispatch of its word in the state that has taken the action off the queue. -/
theorem step_command {s : State} {w : Word} {rest : List HostAction}
    (h : s.host = .regWrite PortName.cmd.offset w :: rest) : step s = commandWrite w (s.taking rest) := by
  rw [step_act h, hostAct_command]

/-- Settles O6: with no error pending the decoder rejects the word (`decode_rejects_iff`) and the dispatch
raises; in the error state it drops the word, which is not CLRERR's. -/
theorem wordWithNoRowIsIllegal : Obligations.WordWithNoRowIsIllegal := by
  refine ⟨fun s w rest h hno => ⟨fun hf he => ?_, fun he => ?_⟩, fun w => no_row_of_unlisted_opcode,
    fun r w => no_row_of_wrong_field⟩
  · obtain ⟨e, hd⟩ := (decode_rejects_iff w).mpr hno
    exact ⟨raise .illegalCommand w (s.taking rest), (step_command h).trans (commandWrite_illegal hf he hd),
      Raised_raise _ _ _⟩
  · rw [step_command h]
    exact commandWrite_dropped he (ne_clrerr_of_no_row hno)

/-! ## FLIP twice -/

/-- Reversing the bytes twice gives the block back (40_field_arithmetic.md R92). -/
@[simp] theorem flipEndian_flipEndian (v : Block) : flipEndian (flipEndian v) = v := by
  refine block_ext fun j hj => ?_
  have hback : 15 - (15 - j) = j := by omega
  rw [byte_flipEndian _ j hj, byte_flipEndian _ (15 - j) (by omega), hback]

/-- FLIP writes the reversed block and always answers a next state (40_field_arithmetic.md R99). -/
theorem exec_flip (bd ba : BlockReg) (s : State) :
    exec (.flip bd ba) s = .next (s.writeB bd (flipEndian (s.readB ba))) := rfl

/-- Settles O55: the second FLIP undoes the first in Bd, and both write Bd only. -/
theorem movbCopiesABlock : Obligations.MovbCopiesABlock := by
  refine ⟨fun bd ba s => ⟨rfl, _, _, exec_flip bd ba s, exec_flip bd bd _, ?_, ?_⟩, fun _ => rfl⟩
  · rw [State.readB_writeB_self, State.readB_writeB_self, flipEndian_flipEndian]
  · exact OnlyBlock_trans (OnlyBlock_writeB s bd _) (OnlyBlock_writeB _ bd _)

end Sys2Proof.Machine
end

section
/-! PROOF. The decoder on an encoded GFMUL and FLIP, the laws of `flipEndian` (40_field_arithmetic.md R92) and
the statement about FLIP (R99). -/

namespace Sys2Proof.Machine

open Sys2Proof.Laws

/-! ## The decoder on a word that selects a row -/

/-- The decoder answers the command of any row the word selects, since only one row has its opcode
(30_encoding.md R70, R76). -/
theorem decode_of_selects {w : Word} {r : OpcodeRow} (hr : r ∈ opcodeMap) (h : r.selects w = true) :
    decode w = .ok (r.build w) := by
  have hone : ∀ q ∈ opcodeMap, q.selects w = true → q = r := fun q hq hw =>
    row_eq_of_fieldOp hq hr ((fieldOp_of_selects hq hw).symm.trans (fieldOp_of_selects hr h))
  unfold decode
  cases hf : opcodeMap.find? (·.selects w) with
  | none => exact absurd h (List.find?_eq_none.mp hf r hr)
  | some q => rw [hone q (List.mem_of_find?_eq_some hf) (by simpa using List.find?_some hf)]

/-- A format R word with a zero `bb` ends in eighteen zero bits (30_encoding.md R72). -/
theorem encodeR_zero_bb (op : BitVec 8) (bd ba : BlockReg) :
    encodeR op bd ba 0 = op ++ regBits bd ++ regBits ba ++ 0#18 := by
  have hzero : regBits 0 ++ 0#15 = 0#18 := by decide
  rw [encodeR, BitVec.append_assoc, hzero]
  rfl

/-- The decoder reads GFMUL back from its word. -/
theorem decode_gfmul (bd ba bb : BlockReg) : decode (encodeR 0x20#8 bd ba bb) = .ok (.gfmul bd ba bb) := by
  rw [decode_of_selects (r := opcodeMap[5]) (List.getElem_mem _) (beq_iff_eq.mpr (encodeR_mask _ bd ba bb))]
  simp [opcodeMap]

/-- The decoder reads FLIP back from its word. -/
theorem decode_flip (bd ba : BlockReg) : decode (encodeR 0x21#8 bd ba 0) = .ok (.flip bd ba) := by
  rw [decode_of_selects (r := opcodeMap[6]) (List.getElem_mem _) (beq_iff_eq.mpr (encodeR_mask_bb _ bd ba))]
  simp [opcodeMap]

/-! ## FLIP -/

/-- Settles O27: FLIP writes `flipEndian` of the source (`exec_flip`), whose bytes are `byte_flipEndian`'s. -/
theorem flipReversesTheBytes : Obligations.FlipReversesTheBytes := by
  intro bd ba s
  have hword := encodeR_zero_bb 0x21#8 bd ba
  refine ⟨hword ▸ decode_flip bd ba, _, exec_flip bd ba s, OnlyBlock_writeB s bd _, fun j hj => ?_⟩
  rw [State.readB_writeB_self, byte_flipEndian _ j hj]

/-! ## The laws of `flipEndian` -/

/-- A byte of an XOR is the XOR of the bytes. -/
theorem byte_xor (v w : Block) (j : Nat) : byte (v ^^^ w) j = byte v j ^^^ byte w j :=
  BitVec.extractLsb'_xor

/-- Reversing the bytes distributes over XOR (40_field_arithmetic.md R92). -/
theorem flipEndian_xor (v w : Block) : flipEndian (v ^^^ w) = flipEndian v ^^^ flipEndian w := by
  refine block_ext fun j hj => ?_
  rw [byte_xor, byte_flipEndian _ j hj, byte_flipEndian _ j hj, byte_flipEndian _ j hj, byte_xor]

/-- The zero block is its own reversal: it is the XOR of a block with itself. -/
theorem flipEndian_zero : flipEndian 0#128 = 0#128 := by
  have h := flipEndian_xor 0#128 0#128
  rwa [BitVec.xor_self, BitVec.xor_self] at h

/-- A block is its own reversal exactly when its bytes are a palindrome (40_field_arithmetic.md R92). -/
theorem flipEndian_eq_self_iff (v : Block) :
    flipEndian v = v ↔ ∀ j, j < 16 → byte v j = byte v (15 - j) := by
  constructor
  · intro h j hj
    rw [← byte_flipEndian v j hj, h]
  · intro h
    refine block_ext fun j hj => ?_
    rw [byte_flipEndian v j hj, h j hj]

/-- Reversing the bytes, by bit positions: bits `8k+7..8k` of the reversed block are byte `k` of the block
(40_field_arithmetic.md R92). -/
theorem flipEndian_extractLsb' (v : Block) {k : Nat} (hk : k < 16) :
    (flipEndian v).extractLsb' (8 * k) 8 = v.extractLsb' (120 - 8 * k) 8 := by
  have hlow : 120 - 8 * (15 - k) = 8 * k := by omega
  have hback : 15 - (15 - k) = k := by omega
  have h := byte_flipEndian v (15 - k) (by omega)
  rwa [hback, byte, byte, hlow] at h

/-- Settles O28: the bit formula, the involution, which makes it a bijection, and the laws above. -/
theorem flipEndianLaws : Obligations.FlipEndianLaws :=
  ⟨fun v _ hk => flipEndian_extractLsb' v hk, flipEndian_flipEndian, flipEndian_xor, flipEndian_zero,
    Function.Involutive.bijective flipEndian_flipEndian, flipEndian_eq_self_iff⟩

end Sys2Proof.Machine
end

section
/-! PROOF. Blocks as elements of the ring GF(2)[x] / (x^128 + x^7 + x^2 + x + 1): a block is its residue class,
XOR is the addition and `multiply` the multiplication. The laws of `multiply` (40_field_arithmetic.md R95) are
the ring's, and the statement about GFMUL (R98) follows. -/

namespace Sys2Proof.Machine

open Polynomial Sys2Proof.Safety

/-! ## The residue class of a block -/

/-- The class of a block's polynomial modulo the field's polynomial (40_field_arithmetic.md R91, R94). -/
noncomputable def residue (u : Block) : AdjoinRoot fieldModulus := AdjoinRoot.mk fieldModulus (poly u)

theorem fieldModulus_degree : fieldModulus.degree = 128 := by
  have hlead : (X ^ 128 : (ZMod 2)[X]).degree = 128 := by rw [degree_X_pow]; norm_num
  rw [fieldModulus_eq, degree_add_eq_left_of_degree_lt, hlead]
  rw [hlead]
  exact fieldModulus_tail_degree_lt

/-- A block's polynomial is already reduced. -/
theorem poly_modByMonic (u : Block) : poly u %ₘ fieldModulus = poly u :=
  (modByMonic_eq_self_iff fieldModulus_monic).mpr (by rw [fieldModulus_degree]; exact poly_degree_lt u)

/-- Polynomials in the same class have the same remainder, and a block is its own. -/
theorem poly_eq_modByMonic {u : Block} {p : (ZMod 2)[X]} (h : residue u = AdjoinRoot.mk fieldModulus p) :
    poly u = p %ₘ fieldModulus := by
  have hrem := congrArg (AdjoinRoot.modByMonicHom fieldModulus_monic) h
  rwa [residue, AdjoinRoot.modByMonicHom_mk, AdjoinRoot.modByMonicHom_mk, poly_modByMonic] at hrem

/-- Different blocks are in different classes. -/
theorem residue_injective {u v : Block} (h : residue u = residue v) : u = v :=
  poly_injective ((poly_eq_modByMonic h).trans (poly_modByMonic v))

/-! ## The operations on classes -/

theorem poly_zero : poly 0#128 = 0 := by simp [poly]

theorem poly_one : poly one = 1 := by
  ext i
  rw [poly_coeff, coeff_one]
  simp [one, BitVec.getLsbD_one]

theorem poly_alpha : poly alpha = X := by
  have hshift : alpha = one <<< 1 := by decide
  have htop : one.getLsbD 127 = false := by decide
  rw [hshift, poly_shiftLeft_one, poly_one, mul_one, htop, if_neg Bool.false_ne_true]

@[simp] theorem residue_zero : residue 0#128 = 0 := by rw [residue, poly_zero, map_zero]

@[simp] theorem residue_one : residue one = 1 := by rw [residue, poly_one, map_one]

@[simp] theorem residue_xor (u v : Block) : residue (u ^^^ v) = residue u + residue v := by
  simp only [residue, poly_xor, map_add]

/-- A multiple of the field's polynomial does not count. -/
theorem mk_add_fieldModulus_mul (p q : (ZMod 2)[X]) :
    AdjoinRoot.mk fieldModulus (p + fieldModulus * q) = AdjoinRoot.mk fieldModulus p := by
  rw [map_add, map_mul, AdjoinRoot.mk_self, zero_mul, add_zero]

/-- The step of R94 multiplies by alpha. -/
@[simp] theorem residue_timesX (v : Block) : residue (timesX v) = residue v * residue alpha := by
  obtain ⟨q, h⟩ := poly_timesX v
  simp only [residue, h, mk_add_fieldModulus_mul, map_mul, poly_alpha]
  exact mul_comm _ _

/-- The whole loop of R94 multiplies the classes. -/
@[simp] theorem residue_multiply (a b : Block) : residue (multiply a b) = residue a * residue b := by
  obtain ⟨q, h⟩ := poly_multiplyLoop b 128 0 0#128 a
  simp only [poly_zero, zero_add, ← poly.eq_def] at h
  simp only [residue, multiply, h, mk_add_fieldModulus_mul, map_mul]
  exact mul_comm _ _

/-! ## GFMUL -/

/-- `multiply` is the remainder of the product (40_field_arithmetic.md R94). -/
theorem poly_multiply (a b : Block) : poly (multiply a b) = (poly a * poly b) %ₘ fieldModulus :=
  poly_eq_modByMonic ((residue_multiply a b).trans (map_mul _ _ _).symm)

/-- GFMUL writes the product and always answers a next state (40_field_arithmetic.md R98). -/
theorem exec_gfmul (bd ba bb : BlockReg) (s : State) :
    exec (.gfmul bd ba bb) s = .next (s.writeB bd (multiply (s.readB ba) (s.readB bb))) := rfl

/-- Settles O26: GFMUL writes `multiply` of the sources (`exec_gfmul`), which is the remainder of the product
(`poly_multiply`). -/
theorem gfmulWritesTheFieldProduct : Obligations.GfmulWritesTheFieldProduct := by
  intro bd ba bb s
  refine ⟨decode_gfmul bd ba bb, _, exec_gfmul bd ba bb s, OnlyBlock_writeB s bd _, ?_⟩
  rw [State.readB_writeB_self, poly_multiply]

/-! ## The laws of `multiply` -/

theorem multiply_comm (a b : Block) : multiply a b = multiply b a :=
  residue_injective (by simp only [residue_multiply, mul_comm])

theorem multiply_assoc (a b c : Block) : multiply (multiply a b) c = multiply a (multiply b c) :=
  residue_injective (by simp only [residue_multiply, mul_assoc])

theorem multiply_xor (a b c : Block) : multiply a (b ^^^ c) = multiply a b ^^^ multiply a c :=
  residue_injective (by simp only [residue_multiply, residue_xor, mul_add])

@[simp] theorem multiply_one (a : Block) : multiply a one = a :=
  residue_injective (by rw [residue_multiply, residue_one, mul_one])

@[simp] theorem multiply_zero (a : Block) : multiply a 0#128 = 0#128 :=
  residue_injective (by rw [residue_multiply, residue_zero, mul_zero])

/-- Multiplying by alpha is one step of the loop of R94. -/
theorem multiply_alpha (a : Block) : multiply a alpha = timesX a :=
  residue_injective (by rw [residue_multiply, residue_timesX])

/-- The step of R94 as R95(e) writes it: the low 127 bits move up by one, and the bit that falls out of the top
puts RED in. -/
theorem timesX_eq (a : Block) :
    timesX a = (a.extractLsb' 0 127 ++ 0#1) ^^^ (if a.getLsbD 127 then RED else 0#128) := by
  have hshift : a <<< 1 = a.extractLsb' 0 127 ++ 0#1 := BitVec.shiftLeft_eq_concat_of_lt (by omega)
  rw [timesX, hshift]
  split
  · rfl
  · exact BitVec.xor_zero.symm

/-- Settles O30: each law is the ring's law of the classes (`residue_injective`), and multiplying by alpha is one
step of the loop. -/
theorem multiplyLaws : Obligations.MultiplyLaws :=
  ⟨multiply_comm, multiply_assoc, multiply_xor, fun a => ⟨multiply_one a, multiply_zero a⟩,
    fun a => (multiply_alpha a).trans (timesX_eq a)⟩

end Sys2Proof.Machine
end

section
/-! PROOF. The tweak generator (41_tweak_generator.md): seeking is repeated advancing (R114), and the statements
about TWINIT (R117), TWADV (R118) and TWSEEK (R119). -/

namespace Sys2Proof.Machine

open Sys2Proof.Laws

/-! ## The decoder -/

/-- The decoder reads TWINIT back from its word. -/
theorem decode_twinit (bd ba : BlockReg) : decode (encodeR 0x30#8 bd ba 0) = .ok (.twinit bd ba) := by
  rw [decode_of_selects (r := opcodeMap[7]) (List.getElem_mem _) (beq_iff_eq.mpr (encodeR_mask_bb _ bd ba))]
  simp [opcodeMap]

/-- The decoder reads TWADV back from its word. -/
theorem decode_twadv (bd ba : BlockReg) : decode (encodeR 0x31#8 bd ba 0) = .ok (.twadv bd ba) := by
  rw [decode_of_selects (r := opcodeMap[8]) (List.getElem_mem _) (beq_iff_eq.mpr (encodeR_mask_bb _ bd ba))]
  simp [opcodeMap]

/-- The decoder reads TWSEEK back from its word. -/
theorem decode_twseek (bd ba bb : BlockReg) : decode (encodeR 0x32#8 bd ba bb) = .ok (.twseek bd ba bb) := by
  rw [decode_of_selects (r := opcodeMap[9]) (List.getElem_mem _) (beq_iff_eq.mpr (encodeR_mask _ bd ba bb))]
  simp [opcodeMap]

/-! ## TWINIT -/

/-- TWINIT without a key. -/
theorem exec_twinit_noKey (bd ba : BlockReg) {s : State} (h : s.keyv = false) :
    exec (.twinit bd ba) s = .next (raise .noKey (encodeR 0x30#8 bd ba 0) s) := by
  rw [exec, execTwinit, withKey_false h, encode]

/-- TWINIT with a key writes the first tweak of the sequence number (R111). -/
theorem exec_twinit_key (bd ba : BlockReg) {s : State} (h : s.keyv = true) :
    exec (.twinit bd ba) s = .next (s.writeB bd (tweak0 Config.cipher s.k2 (s.readB ba))) := by
  rw [exec, execTwinit, withKey_true h]

/-- Settles O32: the two outcomes of TWINIT; the block that is encrypted is `iv`, the reversed source. -/
theorem twinitEncryptsTheSequenceNumber : Obligations.TwinitEncryptsTheSequenceNumber := by
  intro bd ba s
  have hword := encodeR_zero_bb 0x30#8 bd ba
  refine ⟨hword ▸ decode_twinit bd ba, fun hk => ?_, fun hk => ?_⟩
  · exact ⟨_, exec_twinit_noKey bd ba hk, hword ▸ Raised_raise _ _ s⟩
  · exact ⟨_, iv (s.readB ba), exec_twinit_key bd ba hk, OnlyBlock_writeB s bd _, State.readB_writeB_self s bd _,
      byte_flipEndian _⟩

/-! ## Advancing, byte by byte (R115) -/

/-- A shift left by one, in every byte but the last: the byte moves up and takes in the top bit of the byte after
it. -/
theorem byte_shiftLeft_one (v : Block) {j : Nat} (h : j < 15) :
    byte (v <<< 1) j = (byte v j <<< 1) ||| (byte v (j + 1) >>> 7) := by
  apply BitVec.eq_of_getLsbD_eq
  intro i hi
  have hpos : 120 - 8 * j + i < 128 := by omega
  simp only [BitVec.getLsbD_or, BitVec.getLsbD_shiftLeft, BitVec.getLsbD_ushiftRight, byte_getLsbD, hi, hpos]
  rcases Nat.eq_zero_or_pos i with rfl | hi0
  · have hin : 120 - 8 * j - 1 = 120 - 8 * (j + 1) + 7 := by omega
    have hne : ¬120 - 8 * j = 0 := by omega
    simp [hin, hne]
  · have hup : 120 - 8 * j + (i - 1) = 120 - 8 * j + i - 1 := by omega
    have hne : ¬120 - 8 * j + i < 1 := by omega
    have hne' : ¬i < 1 := by omega
    have hout : ¬7 + i < 8 := by omega
    have hlt : i - 1 < 8 := by omega
    simp [hup, hne, hne', hout, hlt]

/-- A shift left by one, in the last byte: zero comes in. -/
theorem byte_shiftLeft_one_last (v : Block) : byte (v <<< 1) 15 = byte v 15 <<< 1 := by
  apply BitVec.eq_of_getLsbD_eq
  intro i hi
  have hlt : i - 1 < 8 := by omega
  have hpos : i < 128 := by omega
  simp only [BitVec.getLsbD_shiftLeft, byte_getLsbD, hi, hlt]
  simp [hpos]

/-- RED stands in the last byte. -/
theorem byte_RED : byte RED 15 = 0x87#8 ∧ ∀ j, j < 15 → byte RED j = 0#8 := by decide

/-- The bit that a shift left by one loses is the top bit of the first byte. -/
theorem byte_zero_top (v : Block) : byte v 0 >>> 7 = 1#8 ↔ v.getLsbD 127 = true := by
  have hbit : (byte v 0).getLsbD 7 = v.getLsbD 127 := byte_getLsbD v 0 7
  have htop : ∀ b : Byte, b >>> 7 = 1#8 ↔ b.getLsbD 7 = true := by decide
  rw [htop, hbit]

/-- Multiplying by alpha leaves every byte but the last to the shift. -/
theorem byte_timesX (v : Block) {j : Nat} (h : j < 15) : byte (timesX v) j = byte (v <<< 1) j := by
  rw [timesX]
  split
  · rw [byte_xor, byte_RED.2 j h, BitVec.xor_zero]
  · rfl

/-- Multiplying by alpha folds 0x87 into the last byte where the shift loses a bit. -/
theorem byte_timesX_last (v : Block) :
    byte (timesX v) 15 = byte (v <<< 1) 15 ^^^ (if v.getLsbD 127 then 0x87#8 else 0#8) := by
  rw [timesX]
  split
  · rw [byte_xor, byte_RED.1]
  · rw [BitVec.xor_zero]

/-- The next tweak is the reversed block times alpha, reversed (R112). -/
theorem advance_eq (t : Block) : advance t = flipEndian (timesX (flipEndian t)) := by
  rw [advance, multiply_alpha]

/-- Every byte of the next tweak but the first. -/
theorem byte_advance (t : Block) {j : Nat} (h0 : 1 ≤ j) (h : j < 16) :
    byte (advance t) j = (byte t j <<< 1) ||| (byte t (j - 1) >>> 7) := by
  have hnext : 15 - (15 - j + 1) = j - 1 := by omega
  have hback : 15 - (15 - j) = j := by omega
  rw [advance_eq, byte_flipEndian _ j h, byte_timesX _ (by omega), byte_shiftLeft_one _ (by omega),
    byte_flipEndian _ _ (by omega), byte_flipEndian _ _ (by omega), hnext, hback]

/-- The first byte of the next tweak. -/
theorem byte_advance_zero (t : Block) :
    byte (advance t) 0 = (byte t 0 <<< 1) ^^^ (if byte t 15 >>> 7 = 1#8 then 0x87#8 else 0#8) := by
  have htop : byte t 15 >>> 7 = 1#8 ↔ (flipEndian t).getLsbD 127 = true := by
    rw [← byte_zero_top, byte_flipEndian _ 0 (by omega)]
  rw [advance_eq, byte_flipEndian _ 0 (by omega), byte_timesX_last, byte_shiftLeft_one_last,
    byte_flipEndian _ 15 (by omega)]
  simp only [htop]

/-! ## TWADV -/

/-- TWADV writes the next tweak and always answers a next state. -/
theorem exec_twadv (bd ba : BlockReg) (s : State) :
    exec (.twadv bd ba) s = .next (s.writeB bd (advance (s.readB ba))) := rfl

/-- Settles O33: TWADV writes `advance` of the source (`exec_twadv`), whose bytes are `byte_advance`'s. -/
theorem twadvWritesTheNextTweak : Obligations.TwadvWritesTheNextTweak := by
  intro bd ba s
  have hword := encodeR_zero_bb 0x31#8 bd ba
  refine ⟨hword ▸ decode_twadv bd ba, _, exec_twadv bd ba s, OnlyBlock_writeB s bd _, ?_⟩
  rw [State.readB_writeB_self]
  exact ⟨rfl, fun j => byte_advance _, byte_advance_zero _⟩

/-! ## Powers of alpha (R114) -/

/-- The class of the i-th power of alpha is the i-th power of the class of alpha. -/
@[simp] theorem residue_alphaPow (i : Nat) : residue (alphaPow i) = residue alpha ^ i := by
  induction i with
  | zero => rw [alphaPow, residue_one, pow_zero]
  | succ i ih => rw [alphaPow, residue_multiply, ih, pow_succ]

/-- The product of two powers of alpha. -/
theorem multiply_alphaPow (i j : Nat) : multiply (alphaPow i) (alphaPow j) = alphaPow (i + j) :=
  residue_injective (by rw [residue_multiply, residue_alphaPow, residue_alphaPow, residue_alphaPow, pow_add])

/-- The first `n + 1` of the 128 bits of a number are its first `n` bits and the next one. -/
theorem leading_bits_succ (i : Block) {n : Nat} (h : n < 128) :
    i.toNat / 2 ^ (128 - (n + 1)) = 2 * (i.toNat / 2 ^ (128 - n)) + (i.getLsbD (127 - n)).toNat := by
  have hexp : 128 - n = 127 - n + 1 := by omega
  have hexp' : 128 - (n + 1) = 127 - n := by omega
  rw [hexp, hexp', pow_succ, ← Nat.div_div_eq_div_mul, BitVec.getLsbD, Nat.testBit_eq_decide_div_mod_eq]
  rcases Nat.mod_two_eq_zero_or_one (i.toNat / 2 ^ (127 - n)) with hm | hm <;> simp [hm] <;> omega

/-- Square and multiply over the first `n` bits of the exponent. -/
theorem alphaPowLead_eq (i : Block) {n : Nat} (h : n ≤ 128) :
    alphaPowLead i n = alphaPow (i.toNat / 2 ^ (128 - n)) := by
  induction n with
  | zero =>
    have hnone : i.toNat / 2 ^ (128 - 0) = 0 := Nat.div_eq_of_lt i.isLt
    rw [hnone, alphaPowLead, alphaPow]
  | succ n ih =>
    rw [alphaPowLead, ih (by omega), multiply_alphaPow, leading_bits_succ i (by omega), ← two_mul]
    cases i.getLsbD (127 - n) with
    | false => rw [if_neg Bool.false_ne_true, Bool.toNat_false, Nat.add_zero]
    | true => rw [if_pos rfl, Bool.toNat_true, alphaPow]

/-- Square and multiply computes the power of the whole exponent. -/
theorem alphaPowOf_eq (i : Block) : alphaPowOf i = alphaPow i.toNat := by
  rw [alphaPowOf, alphaPowLead_eq i le_rfl, Nat.sub_self, pow_zero, Nat.div_one]

/-! ## Seeking -/

/-- Seeking one further is advancing once more. -/
theorem seek_succ (t : Block) (i : Nat) : seek t (i + 1) = advance (seek t i) := by
  rw [seek, seek, advance, flipEndian_flipEndian, multiply_assoc, alphaPow]

/-- Seeking is advancing that many times. -/
theorem seek_eq_iterate (t : Block) (i : Nat) : seek t i = advance^[i] t := by
  induction i with
  | zero => rw [seek, alphaPow, multiply_one, flipEndian_flipEndian, Function.iterate_zero_apply]
  | succ i ih => rw [seek_succ, ih, Function.iterate_succ_apply']

/-- A tweak of the data unit is found by seeking from the first. -/
theorem tweak_eq_seek (c : Cipher) (key2 : Key) (seq : Block) (i : Nat) :
    tweak c key2 seq i = seek (tweak0 c key2 seq) i := by
  rw [tweak, tweakAfter_eq_iterate, seek_eq_iterate]

/-- Settles O35: the recursion is the definition, `alphaPowOf_eq` is the square and multiply, `seek_eq_iterate`
the law. -/
theorem seekIsRepeatedAdvance : Obligations.SeekIsRepeatedAdvance :=
  ⟨⟨rfl, fun _ => rfl⟩, alphaPowOf_eq, fun t i => ⟨rfl, seek_eq_iterate t i⟩, tweak_eq_seek⟩

/-! ## TWSEEK -/

/-- TWSEEK seeks and always answers a next state. -/
theorem exec_twseek (bd ba bb : BlockReg) (s : State) :
    exec (.twseek bd ba bb) s = .next (s.writeB bd (seek (s.readB ba) (s.readB bb).toNat)) := by
  rw [seek, ← alphaPowOf_eq]
  rfl

/-- Settles O34: TWSEEK writes `seek` of the source (`exec_twseek`), which is the iterate of `advance`. -/
theorem twseekAdvancesByTheDistance : Obligations.TwseekAdvancesByTheDistance := by
  intro bd ba bb s
  refine ⟨decode_twseek bd ba bb, _, exec_twseek bd ba bb s, OnlyBlock_writeB s bd _, ?_⟩
  rw [State.readB_writeB_self]
  exact ⟨rfl, seek_eq_iterate _ _⟩

end Sys2Proof.Machine
end

section
/-! PROOF. The order of alpha is 2^128 - 1 (40_field_arithmetic.md R96), so that every block but zero is a power of
alpha, and with it the statement about the tweaks of a data unit (41_tweak_generator.md R116).

The order is read off powers of alpha with 128-bit exponents. A fast squaring, proved equal to the model's, keeps
their evaluation short. -/

namespace Sys2Proof.Machine

/-! ## Squaring by spreading the bits

In characteristic 2 squaring is additive, and it moves the coefficient of x^i to x^(2i). -/

/-- One step of spreading: from groups of `2 s` bits, the upper half of each group moves up by `s`, so that groups
of `s` bits with `s` zeros between them remain. -/
def spreadStep (w : BitVec 256) (s : Nat) : BitVec 256 :=
  (w ^^^ w <<< s) &&& BitVec.ofNat 256 ((2 ^ 256 - 1) / (2 ^ (2 * s) - 1) * (2 ^ s - 1))

/-- Bit `i` of the block at position `2 i`. -/
def spread (u : Block) : BitVec 256 := [64, 32, 16, 8, 4, 2, 1].foldl spreadStep (u.setWidth 256)

/-- Replace x^128 by x^7 + x^2 + x + 1 once in every term from x^128 on. -/
def foldTop (w : BitVec 256) : BitVec 256 :=
  (w.setWidth 128).setWidth 256 ^^^ w >>> 128 ^^^ w >>> 128 <<< 1 ^^^ w >>> 128 <<< 2 ^^^ w >>> 128 <<< 7

/-- The square of a block: `square_eq`. -/
def square (u : Block) : Block := (foldTop (foldTop (spread u))).setWidth 128

/-- A mask keeps the same bits of both sides of an XOR. -/
theorem xor_and_distrib {n : Nat} (v w m : BitVec n) : (v ^^^ w) &&& m = (v &&& m) ^^^ (w &&& m) := by
  ext i hi
  simp only [BitVec.getElem_and, BitVec.getElem_xor, Bool.and_xor_distrib_right]

theorem spreadStep_xor (v w : BitVec 256) (s : Nat) :
    spreadStep (v ^^^ w) s = spreadStep v s ^^^ spreadStep w s := by
  have hregroup : v ^^^ w ^^^ (v <<< s ^^^ w <<< s) = v ^^^ v <<< s ^^^ (w ^^^ w <<< s) := by ac_rfl
  rw [spreadStep, BitVec.shiftLeft_xor_distrib, hregroup, xor_and_distrib, spreadStep, spreadStep]

theorem foldl_spreadStep_xor (ss : List Nat) (v w : BitVec 256) :
    ss.foldl spreadStep (v ^^^ w) = ss.foldl spreadStep v ^^^ ss.foldl spreadStep w := by
  induction ss generalizing v w with
  | nil => rfl
  | cons s ss ih => rw [List.foldl_cons, spreadStep_xor, ih, List.foldl_cons, List.foldl_cons]

theorem foldTop_xor (v w : BitVec 256) : foldTop (v ^^^ w) = foldTop v ^^^ foldTop w := by
  simp only [foldTop, BitVec.setWidth_xor, BitVec.ushiftRight_xor_distrib, BitVec.shiftLeft_xor_distrib]
  ac_rfl

/-- The fast square is additive. -/
theorem square_xor (u v : Block) : square (u ^^^ v) = square u ^^^ square v := by
  rw [square, spread, BitVec.setWidth_xor, foldl_spreadStep_xor, foldTop_xor, foldTop_xor, BitVec.setWidth_xor]
  rfl

/-- The model's square is additive: the two mixed products cancel. -/
theorem multiply_self_xor (u v : Block) :
    multiply (u ^^^ v) (u ^^^ v) = multiply u u ^^^ multiply v v := by
  rw [multiply_xor, multiply_comm _ u, multiply_comm _ v, multiply_xor, multiply_xor, multiply_comm v u,
    BitVec.xor_assoc, ← BitVec.xor_assoc (multiply u v), BitVec.xor_self, BitVec.zero_xor]

/-- The low `n + 1` bits of a block are its low `n` bits and, where bit `n` is set, that bit. -/
theorem low_bits_succ (u : Block) (n : Nat) :
    (u.setWidth (n + 1)).setWidth 128 =
      (u.setWidth n).setWidth 128 ^^^ (if u.getLsbD n then BitVec.twoPow 128 n else 0#128) := by
  apply BitVec.eq_of_getLsbD_eq
  intro i hi
  have hbit : (if u.getLsbD n then BitVec.twoPow 128 n else 0#128).getLsbD i = (u.getLsbD n && decide (n = i)) := by
    cases u.getLsbD n <;> simp [hi, eq_comm]
  simp only [BitVec.getLsbD_xor, BitVec.getLsbD_setWidth, hbit, hi, decide_true, Bool.true_and]
  rcases Nat.lt_trichotomy i n with h | rfl | h
  · simp [h, h.ne', Nat.lt_succ_of_lt h]
  · simp
  · simp [h.ne, h.not_gt, Nat.not_lt.mpr h]

/-- A property that zero and the single bits have and that XOR keeps holds of every block. -/
theorem block_xor_induction {P : Block → Prop} (hzero : P 0#128) (hxor : ∀ u v, P u → P v → P (u ^^^ v))
    (hbit : ∀ i, i < 128 → P (BitVec.twoPow 128 i)) (u : Block) : P u := by
  have hlow : ∀ n, n ≤ 128 → P ((u.setWidth n).setWidth 128) := by
    intro n hn
    induction n with
    | zero =>
      rw [BitVec.eq_nil (u.setWidth 0)]
      exact hzero
    | succ n ih =>
      rw [low_bits_succ]
      refine hxor _ _ (ih (by omega)) ?_
      split
      · exact hbit n hn
      · exact hzero
  simpa using hlow 128 le_rfl

/-- Below the top bit, multiplying by alpha moves a single bit up. -/
theorem timesX_twoPow {i : Nat} (h : i < 127) : timesX (BitVec.twoPow 128 i) = BitVec.twoPow 128 (i + 1) := by
  have hne : ¬i = 127 := by omega
  have htop : (BitVec.twoPow 128 i).getLsbD 127 = false := by
    rw [BitVec.getLsbD_twoPow, decide_eq_false hne, Bool.and_false]
  rw [timesX, htop, if_neg Bool.false_ne_true, BitVec.twoPow_eq, BitVec.twoPow_eq, BitVec.shiftLeft_add]

theorem square_twoPow_zero : square (BitVec.twoPow 128 0) = one := by decide +kernel

/-- The fast square of each bit is x^2 times that of the bit below. -/
theorem square_twoPow_succ : ∀ i, i < 127 →
    square (BitVec.twoPow 128 (i + 1)) = timesX (timesX (square (BitVec.twoPow 128 i))) := by
  decide +kernel

/-- The fast square of a single bit is its square. -/
theorem square_twoPow {i : Nat} (h : i < 128) :
    square (BitVec.twoPow 128 i) = multiply (BitVec.twoPow 128 i) (BitVec.twoPow 128 i) := by
  induction i with
  | zero => rw [square_twoPow_zero]; exact (multiply_one one).symm
  | succ i ih =>
    rw [square_twoPow_succ i (by omega), ih (by omega), ← timesX_twoPow (by omega)]
    exact residue_injective (by simp only [residue_timesX, residue_multiply]; ring)

/-- The fast square is the square. -/
theorem square_eq (u : Block) : square u = multiply u u := by
  induction u using block_xor_induction with
  | hzero => rw [multiply_zero]; decide
  | hxor u v hu hv => rw [square_xor, multiply_self_xor, hu, hv]
  | hbit i hi => exact square_twoPow hi

/-! ## The order of alpha -/

/-- Square and multiply as in `alphaPowLead`, with the fast square. -/
def fastAlphaPowLead (i : Block) : Nat → Block
  | 0 => one
  | n + 1 =>
    if i.getLsbD (127 - n) then timesX (square (fastAlphaPowLead i n)) else square (fastAlphaPowLead i n)

theorem fastAlphaPowLead_eq (i : Block) (n : Nat) : fastAlphaPowLead i n = alphaPowLead i n := by
  induction n with
  | zero => rfl
  | succ n ih => rw [fastAlphaPowLead, alphaPowLead, square_eq, ih, multiply_alpha]

/-- A power of alpha by the fast square. -/
theorem alphaPow_eq_fast {i : Nat} (h : i < 2 ^ 128) :
    alphaPow i = fastAlphaPowLead (BitVec.ofNat 128 i) 128 := by
  rw [fastAlphaPowLead_eq, ← alphaPowOf, alphaPowOf_eq, BitVec.toNat_ofNat, Nat.mod_eq_of_lt h]

/-- The prime factors of 2^128 - 1: those of the Fermat numbers 2^64 + 1 to 2^1 + 1. -/
def orderFactors : List Nat := [67280421310721, 274177, 6700417, 641, 65537, 257, 17, 5, 3]

theorem orderFactors_prod : orderFactors.prod = 2 ^ 128 - 1 := by decide

/-- The prime factors of 67280421310720, for Lucas's test. -/
def lucasFactors : List Nat := [2, 2, 2, 2, 2, 2, 2, 2, 5, 47, 373, 2998279]

theorem lucasFactors_prod : lucasFactors.prod = 67280421310721 - 1 := by decide

theorem prime_of_mem_lucasFactors : ∀ p ∈ lucasFactors, Prime p := by
  simp only [lucasFactors, List.forall_mem_cons, ← Nat.prime_iff]
  norm_num

/-- The powers of Lucas's test, base 3. -/
theorem lucas_cofactor : ∀ p ∈ lucasFactors, (3 : ZMod 67280421310721) ^ ((67280421310721 - 1) / p) ≠ 1 := by
  simp only [lucasFactors, List.forall_mem_cons]
  norm_num
  reduce_mod_char
  decide

/-- The largest of the factors is prime, by Lucas's test. -/
theorem prime_67280421310721 : Nat.Prime 67280421310721 :=
  lucas_primality _ 3 (by reduce_mod_char) fun p hp hd =>
    lucas_cofactor p (mem_list_primes_of_dvd_prod hp.prime prime_of_mem_lucasFactors (by rwa [lucasFactors_prod]))

theorem prime_of_mem_orderFactors : ∀ p ∈ orderFactors, Prime p := by
  simp only [orderFactors, List.forall_mem_cons, ← Nat.prime_iff]
  refine ⟨prime_67280421310721, ?_⟩
  norm_num

/-- Alpha to the 2^128 - 1 is one. -/
theorem alphaPow_order : alphaPow (2 ^ 128 - 1) = one := by
  rw [alphaPow_eq_fast (by norm_num)]
  decide +kernel

/-- Alpha to the 2^128 - 1 without one of its prime factors is not one. -/
theorem fastAlphaPow_cofactor : ∀ p ∈ orderFactors,
    fastAlphaPowLead (BitVec.ofNat 128 ((2 ^ 128 - 1) / p)) 128 ≠ one := by
  decide +kernel

/-- A power of alpha is one exactly when the same power of its class is. -/
theorem alphaPow_eq_one_iff (i : Nat) : alphaPow i = one ↔ residue alpha ^ i = 1 := by
  rw [← residue_alphaPow, ← residue_one]
  exact ⟨congrArg _, residue_injective⟩

/-- The class of alpha has the order 2^128 - 1 (R96). -/
theorem orderOf_residue_alpha : orderOf (residue alpha) = 2 ^ 128 - 1 := by
  refine orderOf_eq_of_pow_and_pow_div_prime (by norm_num) ((alphaPow_eq_one_iff _).mp alphaPow_order)
    fun p hp hd hone => ?_
  have hmem : p ∈ orderFactors :=
    mem_list_primes_of_dvd_prod hp.prime prime_of_mem_orderFactors (by rwa [orderFactors_prod])
  have hlt : (2 ^ 128 - 1) / p < 2 ^ 128 := lt_of_le_of_lt (Nat.div_le_self _ _) (by norm_num)
  exact fastAlphaPow_cofactor p hmem ((alphaPow_eq_fast hlt).symm.trans ((alphaPow_eq_one_iff _).mpr hone))

/-! ## The powers of alpha -/

/-- Two powers of alpha are equal exactly when their exponents differ by a multiple of the order. -/
theorem alphaPow_eq_iff (i j : Nat) : alphaPow i = alphaPow j ↔ i ≡ j [MOD 2 ^ 128 - 1] := by
  have hfin : IsOfFinOrder (residue alpha) :=
    orderOf_pos_iff.mp (by rw [orderOf_residue_alpha]; norm_num)
  rw [← orderOf_residue_alpha, ← hfin.pow_eq_pow_iff_modEq, ← residue_alphaPow, ← residue_alphaPow]
  exact ⟨congrArg _, residue_injective⟩

/-- No power of alpha is zero: it has an inverse. -/
theorem alphaPow_ne_zero {i : Nat} (h : i < 2 ^ 128 - 1) : alphaPow i ≠ 0#128 := by
  intro hzero
  have hinv := multiply_alphaPow (2 ^ 128 - 1 - i) i
  rw [hzero, multiply_zero, Nat.sub_add_cancel h.le, alphaPow_order] at hinv
  exact absurd hinv (by decide)

/-- A block that is not zero is a positive number. -/
theorem toNat_pos_of_ne_zero {u : Block} (h : u ≠ 0#128) : 1 ≤ u.toNat :=
  Nat.pos_of_ne_zero fun h0 => h (BitVec.eq_of_toNat_eq h0)

/-- Every block but zero is a power of alpha: the powers are different, and there are as many of them as blocks
that are not zero. -/
theorem exists_alphaPow {u : Block} (h : u ≠ 0#128) : ∃ i, alphaPow i = u := by
  have hmaps : Set.MapsTo (fun i => (alphaPow i).toNat) (Finset.range (2 ^ 128 - 1)) (Finset.Ico 1 (2 ^ 128)) := by
    intro i hi
    have hne := alphaPow_ne_zero (Finset.mem_range.mp hi)
    exact Finset.mem_coe.mpr (Finset.mem_Ico.mpr ⟨toNat_pos_of_ne_zero hne, (alphaPow i).isLt⟩)
  have hinj : Set.InjOn (fun i => (alphaPow i).toNat) (Finset.range (2 ^ 128 - 1)) := fun i hi j hj hij =>
    ((alphaPow_eq_iff i j).mp (BitVec.eq_of_toNat_eq hij)).eq_of_lt_of_lt (Finset.mem_range.mp hi)
      (Finset.mem_range.mp hj)
  have hcard : (Finset.Ico 1 (2 ^ 128)).card ≤ (Finset.range (2 ^ 128 - 1)).card := by
    rw [Nat.card_Ico, Finset.card_range]
  obtain ⟨i, -, hi⟩ := Finset.surjOn_of_injOn_of_card_le _ hmaps hinj hcard
    (Finset.mem_coe.mpr (Finset.mem_Ico.mpr ⟨toNat_pos_of_ne_zero h, u.isLt⟩))
  exact ⟨i, BitVec.eq_of_toNat_eq hi⟩

/-! ## The tweaks of a data unit (R116) -/

/-- From the zero block every tweak is zero. -/
theorem seek_zero (i : Nat) : seek 0#128 i = 0#128 := by
  rw [seek, flipEndian_zero, multiply_comm, multiply_zero, flipEndian_zero]

/-- From any other block, tweaks less than the order of alpha apart are different. -/
theorem seek_injective {t : Block} (ht : t ≠ 0#128) {i j : Nat} (hi : i < 2 ^ 128 - 1) (hj : j < 2 ^ 128 - 1)
    (h : seek t i = seek t j) : i = j := by
  have hflip : flipEndian t ≠ 0#128 := fun h0 => ht (by rw [← flipEndian_flipEndian t, h0, flipEndian_zero])
  obtain ⟨m, hm⟩ := exists_alphaPow hflip
  have hpow := congrArg flipEndian h
  rw [seek, seek, flipEndian_flipEndian, flipEndian_flipEndian, ← hm, multiply_alphaPow, multiply_alphaPow,
    alphaPow_eq_iff] at hpow
  exact (hpow.add_left_cancel' m).eq_of_lt_of_lt hi hj

/-- Settles O36: every tweak is sought from the first (`tweak_eq_seek`); from zero all are zero (`seek_zero`), from
any other block they are distinct (`seek_injective`). -/
theorem tweaksAreDistinctUnlessTheFirstIsZero : Obligations.TweaksAreDistinctUnlessTheFirstIsZero := by
  intro c key2 seq
  have hzero : tweak0 c key2 seq = 0#128 → ∀ i, tweak c key2 seq i = 0#128 := fun h i => by
    rw [tweak_eq_seek, h, seek_zero]
  refine ⟨⟨fun hdistinct h => ?_, fun h i j hij hj heq => ?_⟩, hzero, fun hperm => hperm.existsUnique _⟩
  · exact hdistinct 0 1 (by norm_num) (by norm_num) ((hzero h 0).trans (hzero h 1).symm)
  · rw [tweak_eq_seek, tweak_eq_seek] at heq
    exact hij.ne (seek_injective h (by omega) (by omega) heq)

end Sys2Proof.Machine
end

section
/-! PROOF. The block codec (42_block_codec.md): the statements about XENC (R128) and XDEC (R129), which share the
two outcomes of a keyed command that writes a block, and that decrypting a block undoes encrypting it (R127). -/

namespace Sys2Proof.Machine

open Sys2Proof.Laws Sys2Proof.Safety

/-! ## The decoder -/

/-- The decoder reads XENC back from its word. -/
theorem decode_xenc (bd ba bb : BlockReg) : decode (encodeR 0x40#8 bd ba bb) = .ok (.xenc bd ba bb) := by
  rw [decode_of_selects (r := opcodeMap[10]) (List.getElem_mem _) (beq_iff_eq.mpr (encodeR_mask _ bd ba bb))]
  simp [opcodeMap]

/-- The decoder reads XDEC back from its word. -/
theorem decode_xdec (bd ba bb : BlockReg) : decode (encodeR 0x41#8 bd ba bb) = .ok (.xdec bd ba bb) := by
  rw [decode_of_selects (r := opcodeMap[11]) (List.getElem_mem _) (beq_iff_eq.mpr (encodeR_mask _ bd ba bb))]
  simp [opcodeMap]

/-! ## XENC and XDEC -/

/-- The two outcomes of a keyed command that computes a block: `NoKey` and nothing else without a key
(10_state.md R23), the block in the destination and nothing else with one. -/
theorem withKey_writeB_outcomes (w : Word) (bd : BlockReg) (f : State → Block) (s : State) :
    (s.keyv = false →
      ∃ t, withKey w s (fun s => .next (s.writeB bd (f s))) = .next t ∧ Raised .noKey w s t) ∧
    (s.keyv = true →
      ∃ t, withKey w s (fun s => .next (s.writeB bd (f s))) = .next t ∧ OnlyBlock bd s t ∧ t.readB bd = f s) :=
  ⟨fun hk => ⟨_, withKey_false hk, Raised_raise _ w s⟩,
    fun hk => ⟨_, withKey_true hk, OnlyBlock_writeB s bd _, State.readB_writeB_self s bd _⟩⟩

/-- XENC is a keyed command that computes the encryption envelope (R125, R128). -/
theorem exec_xenc (bd ba bb : BlockReg) (s : State) :
    exec (.xenc bd ba bb) s = withKey (encodeR 0x40#8 bd ba bb) s fun s =>
      .next (s.writeB bd (Config.encrypt s.k1 (s.readB ba ^^^ s.readB bb) ^^^ s.readB bb)) := rfl

/-- XDEC is a keyed command that computes the decryption envelope (R126, R129). -/
theorem exec_xdec (bd ba bb : BlockReg) (s : State) :
    exec (.xdec bd ba bb) s = withKey (encodeR 0x41#8 bd ba bb) s fun s =>
      .next (s.writeB bd (Config.decrypt s.k1 (s.readB ba ^^^ s.readB bb) ^^^ s.readB bb)) := rfl

/-- Settles O37: XENC is a keyed command that computes a block (`exec_xenc`), so it has their two outcomes. -/
theorem xencWritesTheEnvelope : Obligations.XencWritesTheEnvelope := by
  intro bd ba bb s
  rw [exec_xenc]
  exact ⟨decode_xenc bd ba bb, withKey_writeB_outcomes _ bd _ s⟩

/-- Settles O38: XDEC is a keyed command that computes a block (`exec_xdec`), so it has their two outcomes. -/
theorem xdecWritesTheEnvelope : Obligations.XdecWritesTheEnvelope := by
  intro bd ba bb s
  rw [exec_xdec]
  exact ⟨decode_xdec bd ba bb, withKey_writeB_outcomes _ bd _ s⟩

/-! ## Decrypting what was encrypted -/

/-- Settles O39: the tweak cancels between the two envelopes, D undoes E, and the tweak cancels again. -/
theorem decryptBlockUndoesEncryptBlock : Obligations.DecryptBlockUndoesEncryptBlock := by
  intro c hc key1 t p
  have hcancel : ∀ x : Block, x ^^^ t ^^^ t = x := fun x => by
    rw [BitVec.xor_assoc, BitVec.xor_self, BitVec.xor_zero]
  calc decryptBlock c key1 t (encryptBlock c key1 t p)
      = c.decrypt key1 (c.encrypt key1 (p ^^^ t) ^^^ t ^^^ t) ^^^ t := rfl
    _ = p ^^^ t ^^^ t := by rw [hcancel, hc]
    _ = p := hcancel p

end Sys2Proof.Machine
end

section
/-! PROOF. The data-unit codec (43_data_unit_codec.md): the two functions on a data unit whose last full block is
named, that they keep the length (R150) and undo each other (R152), the valid lengths (R136), the unit of one block
(R153), and the checks of DUENC and DUDEC in their order (R143). -/

namespace Sys2Proof.Machine

open Sys2Proof.Safety

/-! ## Splitting and joining a block (R139, R140 steps 3 and 4) -/

/-- What follows the first bits does not reach the leading ones. -/
theorem leading_splice {r : Nat} (x y : Block) (hr : r ≤ 128) : leading r (splice r x y) = leading r x := by
  apply BitVec.eq_of_getLsbD_eq
  intro i hi
  rw [leading_getLsbD r _ i hr hi, leading_getLsbD r _ i hr hi, splice_getLsbD r x y i hr hi]
  by_cases h : i < 128 - r
  · have hn : ¬128 - r ≤ i := by omega
    simp [hn]
  · simp [h]

/-- The leading bits of a block and its last bits, carried behind another block's first bits, make up the block
again. -/
theorem splice_leading_splice {r : Nat} (x y : Block) (hr : r ≤ 128) :
    splice r (leading r x) (splice r y x) = x := by
  apply BitVec.eq_of_getLsbD_eq
  intro i hi
  rw [splice_getLsbD r _ _ i hr hi]
  split
  next h => rw [splice_getLsbD r y x i hr hi, if_pos h]
  next h =>
    have hle : 128 - r ≤ i := Nat.le_of_not_lt h
    simp [leading_getLsbD r x i hr hi, hle]

/-! ## The two functions, case by case -/

/-- A data unit of at least one full block has no partial block, or it has one behind a last full block. -/
theorem DataUnit.whole_or_stealing {u : DataUnit} (h : 1 ≤ u.full.length) :
    (∃ xs part, u = ⟨xs, 0, part⟩) ∨ ∃ xs x r part, r ≠ 0 ∧ u = ⟨xs ++ [x], r, part⟩ := by
  obtain ⟨full, r, part⟩ := u
  by_cases h0 : r = 0
  · exact .inl ⟨full, part, by rw [h0]⟩
  · obtain ⟨xs, x, rfl⟩ := (List.eq_nil_or_concat' full).resolve_left (List.ne_nil_of_length_pos h)
    exact .inr ⟨xs, x, r, part, h0, rfl⟩

section

variable (c : Cipher) (key1 key2 : Key) (seq : Block)

/-- Without a partial block, each block is encrypted under its own tweak (R137). -/
theorem xtsEncrypt_whole (xs : List Block) (part : Block) :
    xtsEncrypt c key1 key2 seq ⟨xs, 0, part⟩ =
      ⟨underTweaks (encryptBlock c key1) (tweak0 c key2 seq) xs, 0, part⟩ := rfl

/-- Without a partial block, each block is decrypted under its own tweak (R138). -/
theorem xtsDecrypt_whole (xs : List Block) (part : Block) :
    xtsDecrypt c key1 key2 seq ⟨xs, 0, part⟩ =
      ⟨underTweaks (decryptBlock c key1) (tweak0 c key2 seq) xs, 0, part⟩ := rfl

/-- With a partial block, the encryption of the last full block `x` lends its last bits to it; what they make up is
encrypted in front of the bits that are left (R139). -/
theorem xtsEncrypt_stealing (xs : List Block) (x part : Block) {r : Nat} (hr : r ≠ 0) :
    xtsEncrypt c key1 key2 seq ⟨xs ++ [x], r, part⟩ =
      ⟨underTweaks (encryptBlock c key1) (tweak0 c key2 seq) xs ++
          [encryptBlock c key1 (tweak c key2 seq (xs.length + 1))
            (splice r part (encryptBlock c key1 (tweak c key2 seq xs.length) x))],
        r, leading r (encryptBlock c key1 (tweak c key2 seq xs.length) x)⟩ := by
  simp [xtsEncrypt, tweak, hr]

/-- With a partial block, the last full block `x` is decrypted first, under the later tweak, and lends its last bits
back (R140). -/
theorem xtsDecrypt_stealing (xs : List Block) (x part : Block) {r : Nat} (hr : r ≠ 0) :
    xtsDecrypt c key1 key2 seq ⟨xs ++ [x], r, part⟩ =
      ⟨underTweaks (decryptBlock c key1) (tweak0 c key2 seq) xs ++
          [decryptBlock c key1 (tweak c key2 seq xs.length)
            (splice r part (decryptBlock c key1 (tweak c key2 seq (xs.length + 1)) x))],
        r, leading r (decryptBlock c key1 (tweak c key2 seq (xs.length + 1)) x)⟩ := by
  simp [xtsDecrypt, tweak, hr]

/-! ## The length of the output (R150) -/

/-- The function answers as many full blocks and as many further bits as it is given. -/
def KeepsLength (f : DataUnit → DataUnit) : Prop :=
  ∀ u, 1 ≤ u.full.length → (f u).full.length = u.full.length ∧ (f u).r = u.r

theorem KeepsLength.bits {f : DataUnit → DataUnit} (hf : KeepsLength f) {u : DataUnit} (h : 1 ≤ u.full.length) :
    (f u).bits = u.bits := by
  obtain ⟨hfull, hr⟩ := hf u h
  rw [DataUnit.bits, DataUnit.bits, hfull, hr]

theorem keepsLength_xtsEncrypt : KeepsLength (xtsEncrypt c key1 key2 seq) := by
  intro u h
  rcases u.whole_or_stealing h with ⟨xs, part, rfl⟩ | ⟨xs, x, r, part, h0, rfl⟩
  · simp [xtsEncrypt_whole]
  · simp [xtsEncrypt_stealing c key1 key2 seq xs x part h0]

theorem keepsLength_xtsDecrypt : KeepsLength (xtsDecrypt c key1 key2 seq) := by
  intro u h
  rcases u.whole_or_stealing h with ⟨xs, part, rfl⟩ | ⟨xs, x, r, part, h0, rfl⟩
  · simp [xtsDecrypt_whole]
  · simp [xtsDecrypt_stealing c key1 key2 seq xs x part h0]

end

/-- Settles O47: both functions keep the count of full blocks and of further bits. -/
theorem noExpansion : Obligations.NoExpansion := fun c key1 key2 seq _ h =>
  ⟨(keepsLength_xtsEncrypt c key1 key2 seq).bits h, (keepsLength_xtsDecrypt c key1 key2 seq).bits h⟩

/-! ## Decrypting what was encrypted (R152) -/

/-- Two families of block functions that undo each other under every tweak do so along a list. -/
theorem underTweaks_underTweaks {f g : Block → Block → Block} (h : ∀ t x, g t (f t x) = x) (t : Block)
    (xs : List Block) : underTweaks g t (underTweaks f t xs) = xs := by
  induction xs generalizing t with
  | nil => rfl
  | cons x xs ih => simp only [underTweaks, h, ih]

/-- Settles O44: the blocks in front are undone one by one; with a partial block, the last full block of the
encryption gives back the joined block, whose last bits complete the stolen block (`splice_leading_splice`). -/
theorem decryptUndoesEncrypt : Obligations.DecryptUndoesEncrypt := by
  intro c hc key1 key2 seq u hfull hr hpart
  have hblock := decryptBlockUndoesEncryptBlock c hc key1
  rcases u.whole_or_stealing hfull with ⟨xs, part, rfl⟩ | ⟨xs, x, r, part, h0, rfl⟩
  · rw [xtsEncrypt_whole, xtsDecrypt_whole, underTweaks_underTweaks hblock]
  · rw [xtsEncrypt_stealing c key1 key2 seq xs x part h0, xtsDecrypt_stealing c key1 key2 seq _ _ _ h0,
      underTweaks_length, underTweaks_underTweaks hblock, hblock, splice_leading_splice _ _ hr.le, hblock,
      leading_splice _ _ hr.le, hpart]

/-! ## Lengths of a data unit -/

/-- Settles O43: `nblk` is the length over 128, rounded up, and `134217728 = 128 * 2^20`. -/
theorem validLengthsAreOneToTwoToTheTwentyBlocks : Obligations.ValidLengthsAreOneToTwoToTheTwentyBlocks := by
  intro s
  simp only [ValidLength, State.unitBits, State.unitBlocks, ceilDiv128]
  omega

/-- A unit read from enough words has all its full blocks. -/
theorem DataUnit.ofWords_full_length {n : Nat} {ws : List Block} (h : n / 128 ≤ ws.length) :
    (DataUnit.ofWords n ws).full.length = n / 128 := by
  simp [DataUnit.ofWords, h]

/-- Settles O46: one full block and no partial one, so the block goes under the first tweak (`xtsEncrypt_whole`). -/
theorem oneBlockUnitIsOneEncryptBlock : Obligations.OneBlockUnitIsOneEncryptBlock := by
  intro c key1 key2 seq p
  have hunit : ∀ b : Block, DataUnit.ofWords 128 [b] = ⟨[b], 0, leading 0 0#128⟩ := fun _ => rfl
  rw [hunit, hunit, xtsEncrypt_whole, underTweaks, underTweaks_nil]

/-! ## The checks of DUENC and DUDEC (R143) -/

/-- The checks in the port's own registers. -/
theorem dataUnitError_eq (s : State) : dataUnitError s =
    if s.len.toNat < 128 ∨ 2 ^ 20 < (s.len.toNat + 127) / 128 then some .invalidLength
    else if s.keyv = false then some .noKey
    else if 2 ^ 21 < s.src.toNat + (s.len.toNat + 127) / 128 ∨ 2 ^ 21 < s.dst.toNat + (s.len.toNat + 127) / 128 then
      some .addrRange
    else if s.src.toNat ≠ s.dst.toNat ∧ s.src.toNat < s.dst.toNat + (s.len.toNat + 127) / 128 ∧
        s.dst.toNat < s.src.toNat + (s.len.toNat + 127) / 128 then some .overlap
    else none := rfl

/-- What a function that keeps the length answers for the unit in memory is written as the words that were read. -/
theorem KeepsLength.toWords_length {f : DataUnit → DataUnit} (hf : KeepsLength f) {n : Nat} (hn : 128 ≤ n)
    {ws : List Block} (hws : ws.length = ceilDiv128 n) :
    (f (DataUnit.ofWords n ws)).toWords.length = ceilDiv128 n := by
  have hlen : (DataUnit.ofWords n ws).full.length = n / 128 :=
    DataUnit.ofWords_full_length (by rw [hws, ceilDiv128_eq]; omega)
  obtain ⟨hfull, hr⟩ := hf (DataUnit.ofWords n ws) (by omega)
  rw [DataUnit.toWords_length, hfull, hlen, hr, ceilDiv128_eq, DataUnit.ofWords]

/-- A data-unit command whose checks all pass changes the destination words only (R146). -/
theorem dataUnitCommand_onlyWords {f : DataUnit → DataUnit} (hf : KeepsLength f) (w : Word) {s : State}
    (h : UnitReady s) :
    ∃ t, dataUnitCommand w f s = .next t ∧ OnlyWords s.destAddress s.unitBlocks s t := by
  have hlen := hf.toWords_length h.1.1
    (ws := (List.range s.unitBlocks).map fun j => s.dmemWord (s.sourceAddress + j)) (by simp [State.unitBlocks])
  obtain ⟨t, ht, hw⟩ := dataUnitCommand_of_ready w f s h hlen
  have honly := OnlyWords_writeRange hw
  rw [hlen] at honly
  exact ⟨t, ht, honly⟩

/-- DUENC and DUDEC are one operation with two functions, which keep the length. -/
theorem exec_dataUnit {i : Instr} {ba : BlockReg} (s : State) (hi : i = .duenc ba ∨ i = .dudec ba) :
    ∃ f, KeepsLength f ∧ exec i s = dataUnitCommand (encode i) f s := by
  rcases hi with rfl | rfl
  · exact ⟨_, keepsLength_xtsEncrypt Config.cipher s.k1 s.k2 (s.readB ba), rfl⟩
  · exact ⟨_, keepsLength_xtsDecrypt Config.cipher s.k1 s.k2 (s.readB ba), rfl⟩

/-- Settles O42: the branch of the checks (`dataUnitError_eq`) decides between the error that is raised and, when
none fails, the command that writes its destination. -/
theorem dataUnitChecksInOrder : Obligations.DataUnitChecksInOrder := by
  intro ba s i hi
  obtain ⟨f, hf, hexec⟩ := exec_dataUnit s hi
  have hraise : ∀ e, dataUnitError s = some e → ∃ t, exec i s = .next t ∧ Raised e (encode i) s t := fun e he =>
    ⟨_, hexec.trans (dataUnitCommand_of_error he), Raised_raise e (encode i) s⟩
  have hcheck := dataUnitError_eq s
  dsimp only
  split_ifs with hlen hkey hrange hoverlap
  · exact hraise _ (by rw [hcheck, if_pos hlen])
  · exact hraise _ (by rw [hcheck, if_neg hlen, if_pos hkey])
  · exact hraise _ (by rw [hcheck, if_neg hlen, if_neg hkey, if_pos hrange])
  · exact hraise _ (by rw [hcheck, if_neg hlen, if_neg hkey, if_neg hrange, if_pos hoverlap])
  · have hready : UnitReady s := (dataUnitError_eq_none s).mp <| by
      rw [hcheck, if_neg hlen, if_neg hkey, if_neg hrange, if_neg hoverlap]
    exact hexec ▸ dataUnitCommand_onlyWords hf (encode i) hready

end Sys2Proof.Machine
end

section
/-! PROOF. Data movement and the system commands (44_data_movement_and_system.md): the statements about LDB (R160),
STB (R161), NOP (R164) and CLRERR (R165). -/

namespace Sys2Proof.Machine

open Sys2Proof.Laws Sys2Proof.Safety

/-! ## The decoder -/

/-- The decoder reads NOP back from its word. -/
theorem decode_nop : decode 0x01000000#32 = .ok .nop :=
  decode_of_selects (r := opcodeMap[0]) (List.getElem_mem _) rfl

/-- The decoder reads CLRERR back from its word. -/
theorem decode_clrerr : decode 0x02000000#32 = .ok .clrerr :=
  decode_of_selects (r := opcodeMap[1]) (List.getElem_mem _) rfl

/-- The decoder reads LDB back from its word. -/
theorem decode_ldb (bd : BlockReg) (addr : WordAddr) : decode (encodeM 0x10#8 bd addr) = .ok (.ldb bd addr) := by
  rw [decode_of_selects (r := opcodeMap[2]) (List.getElem_mem _) (beq_iff_eq.mpr (encodeM_mask _ bd addr))]
  simp [opcodeMap]

/-- The decoder reads STB back from its word. -/
theorem decode_stb (bs : BlockReg) (addr : WordAddr) : decode (encodeM 0x11#8 bs addr) = .ok (.stb bs addr) := by
  rw [decode_of_selects (r := opcodeMap[3]) (List.getElem_mem _) (beq_iff_eq.mpr (encodeM_mask _ bs addr))]
  simp [opcodeMap]

/-! ## LDB and STB -/

/-- Byte `j` of a word of the data memory is its cell `j` (20_memory.md R53). -/
theorem State.byte_dmemWord (s : State) (a : Nat) {j : Nat} (hj : j < 16) :
    byte (s.dmemWord a) j = s.dmemByte (16 * a + j) :=
  byte_blockOfBytes _ j hj

/-- Settles O22: LDB writes the word to the register (`execLdb_eq`), and the word's bytes are its cells. -/
theorem ldbLoadsTheWord : Obligations.LdbLoadsTheWord := by
  intro bd addr s
  refine ⟨decode_ldb bd addr, _, execLdb_eq bd addr s, OnlyBlock_writeB s bd _, fun j hj => ?_⟩
  rw [State.readB_writeB_self, s.byte_dmemWord addr.toNat hj]

/-- Settles O23: STB writes the register to the word (`execStb_eq`), which then reads as the register, so its cells
hold the register's bytes. -/
theorem stbStoresTheBlock : Obligations.StbStoresTheBlock := by
  intro bs addr s
  have hword : State.dmemWord { s with mem := s.mem.storeWord addr.toNat (s.readB bs) } addr.toNat = s.readB bs := by
    rw [State.dmemWord_storeWord, if_pos rfl]
  refine ⟨decode_stb bs addr, _, execStb_eq bs addr s, OnlyWords_storeWord s addr.toNat _, hword, fun j hj => ?_⟩
  rw [← State.byte_dmemWord _ addr.toNat hj, hword]

/-! ## NOP -/

/-- The dispatch of NOP changes nothing: a FATAL core and one in the error state drop it, any other executes it. -/
theorem commandWrite_nop (s : State) : commandWrite 0x01000000#32 s = .next s := by
  by_cases hf : s.fatal = true
  · exact commandWrite_fatal hf
  · by_cases he : s.errcode = 0#8
    · exact commandWrite_decoded (Bool.eq_false_of_not_eq_true hf) he decode_nop
    · exact commandWrite_dropped he (by decide)

/-- The all-zero word has an opcode that no row has (30_encoding.md R77(a)). -/
theorem decode_rejects_zero : ∃ e, decode 0x00000000#32 = .error e :=
  (decode_rejects_iff _).mpr (no_row_of_unlisted_opcode (by decide))

/-- Settles O20: the command and, in every state, the dispatch of its word change nothing (`commandWrite_nop`). -/
theorem nopChangesNothing : Obligations.NopChangesNothing :=
  ⟨fun _ => rfl, decode_nop, fun s rest h => (step_command h).trans (commandWrite_nop (s.taking rest)),
    decode_rejects_zero⟩

/-! ## CLRERR -/

/-- CLRERR leaves the error state, from every state. -/
theorem exec_clrerr (s : State) : exec .clrerr s = .next (leaveError s) := rfl

/-- A FATAL core does not leave its error (60_exceptions.md R182). -/
theorem leaveError_of_fatal {s : State} (h : s.fatal = true) : leaveError s = s :=
  if_pos h

/-- With no error pending there is nothing to leave. -/
theorem leaveError_of_no_error {s : State} (hcode : s.errcode = 0#8) (hcmd : s.errcmd = 0#32) :
    leaveError s = s := by
  by_cases hf : s.fatal = true
  · exact leaveError_of_fatal hf
  · rw [leaveError, if_neg hf, ← hcode, ← hcmd]

/-- Bit 1 of STATUS is ERR (10_state.md R33). -/
theorem State.status_getLsbD_err (s : State) : s.status.getLsbD 1 = s.err := by
  simp only [State.status, BitVec.getLsbD_append]
  simp

/-- The dispatch of CLRERR's word executes it in every state: where a FATAL core drops it, it changes nothing. -/
theorem commandWrite_clrerr_word (s : State) : commandWrite 0x02000000#32 s = exec .clrerr s := by
  by_cases hf : s.fatal = true
  · rw [commandWrite_fatal hf, exec_clrerr, leaveError_of_fatal hf]
  · by_cases he : s.errcode = 0#8
    · exact commandWrite_decoded (Bool.eq_false_of_not_eq_true hf) he decode_clrerr
    · exact commandWrite_clrerr he

/-- Settles O21: CLRERR is `leaveError`, which clears the two error registers unless FATAL, and a write of its word
is CLRERR (`commandWrite_clrerr_word`). -/
theorem clrerrLeavesTheErrorState : Obligations.ClrerrLeavesTheErrorState := by
  refine ⟨fun s => ⟨leaveError s, exec_clrerr s, OnlyErrorRegisters_leaveError s, fun hf => ?_, fun hf => ?_,
    leaveError_of_no_error⟩, fun s rest h => (step_command h).trans (commandWrite_clrerr_word (s.taking rest))⟩
  · rw [leaveError_of_fatal hf]
    exact ⟨rfl, rfl⟩
  · have hcode : (leaveError s).errcode = 0#8 := by simp [hf]
    have hcmd : (leaveError s).errcmd = 0#32 := by simp [hf]
    exact ⟨hcode, hcmd, by rw [State.status_getLsbD_err, State.err, hcode]; rfl⟩

end Sys2Proof.Machine
end

section
/-! PROOF. The encoder and the decoder undo each other (30_encoding.md R70 to R77), and the statements about LDKEY
(44_data_movement_and_system.md R162, R163). -/

namespace Sys2Proof.Machine

open Sys2Proof.Laws Sys2Proof.Safety

/-! ## Decoding the word of a command -/

/-- The decoder reads LDKEY back from its word. -/
theorem decode_ldkey (addr : WordAddr) : decode (encodeM 0x12#8 0 addr) = .ok (.ldkey addr) := by
  rw [decode_of_selects (r := opcodeMap[4]) (List.getElem_mem _) (beq_iff_eq.mpr (encodeM_mask_bd _ addr))]
  simp [opcodeMap]

/-- The decoder reads DUENC back from its word. -/
theorem decode_duenc (ba : BlockReg) : decode (encodeR 0x50#8 0 ba 0) = .ok (.duenc ba) := by
  rw [decode_of_selects (r := opcodeMap[12]) (List.getElem_mem _) (beq_iff_eq.mpr (encodeR_mask_bd_bb _ ba))]
  simp [opcodeMap]

/-- The decoder reads DUDEC back from its word. -/
theorem decode_dudec (ba : BlockReg) : decode (encodeR 0x51#8 0 ba 0) = .ok (.dudec ba) := by
  rw [decode_of_selects (r := opcodeMap[13]) (List.getElem_mem _) (beq_iff_eq.mpr (encodeR_mask_bd_bb _ ba))]
  simp [opcodeMap]

/-- Settles O1, command by command: the word selects the command's row, and the row reads the fields back. -/
theorem decodeOfEncodeIsTheCommand : Obligations.DecodeOfEncodeIsTheCommand := fun i =>
  match i with
  | .nop => decode_nop
  | .clrerr => decode_clrerr
  | .ldb bd addr => decode_ldb bd addr
  | .stb bs addr => decode_stb bs addr
  | .ldkey addr => decode_ldkey addr
  | .gfmul bd ba bb => decode_gfmul bd ba bb
  | .flip bd ba => decode_flip bd ba
  | .twinit bd ba => decode_twinit bd ba
  | .twadv bd ba => decode_twadv bd ba
  | .twseek bd ba bb => decode_twseek bd ba bb
  | .xenc bd ba bb => decode_xenc bd ba bb
  | .xdec bd ba bb => decode_xdec bd ba bb
  | .duenc ba => decode_duenc ba
  | .dudec ba => decode_dudec ba

/-! ## Encoding the command of a word

A mask keeps the opcode and the must-be-zero bits, so that the word is made up of what its match fixes and of the
operand fields. -/

/-- A bit that the mask keeps is the bit of the match. -/
theorem getLsbD_of_and_eq {w m p : Word} (h : w &&& m = p) {i : Nat} (hi : m.getLsbD i = true) :
    w.getLsbD i = p.getLsbD i := by
  rw [← h, BitVec.getLsbD_and, hi, Bool.and_true]

/-- A register field that the mask keeps and the match makes zero names register 0. -/
theorem regField_eq_zero {w m p : Word} (h : w &&& m = p) {lo : Nat} (hm : m.extractLsb' lo 3 = BitVec.allOnes 3)
    (hp : p.extractLsb' lo 3 = 0#3) : regField w lo = 0 := by
  refine regField_of_bits ?_
  rwa [← h, BitVec.extractLsb'_and, hm, BitVec.and_allOnes] at hp

/-- A match is also met under a mask that keeps less, as long as it keeps what the match fixes. -/
theorem and_eq_of_and_eq {w m p m' : Word} (h : w &&& m = p) (hm : m &&& m' = m') (hp : p &&& m' = p) :
    w &&& m' = p := by
  rw [← hm, ← BitVec.and_assoc, h, hp]

/-- A format R word is its opcode, its three fields and fifteen zero bits (R72). -/
theorem encodeR_fields {w : Word} {op : BitVec 8} (h : w &&& 0xFF007FFF#32 = op ++ 0#24) :
    encodeR op (fieldBd w) (fieldBa w) (fieldBb w) = w := by
  refine BitVec.eq_of_getLsbD_eq fun i hi => ?_
  have hbit := getLsbD_of_and_eq h (i := i)
  simp only [encodeR, fieldBd, fieldBa, fieldBb, regBits_regField, BitVec.getLsbD_append] at hbit ⊢
  interval_cases i <;> simp_all

/-- A format M word is its opcode and its two fields (R73). -/
theorem encodeM_fields {w : Word} {op : BitVec 8} (h : w &&& 0xFF000000#32 = op ++ 0#24) :
    encodeM op (fieldBd w) (fieldAddr w) = w := by
  refine BitVec.eq_of_getLsbD_eq fun i hi => ?_
  have hbit := getLsbD_of_and_eq h (i := i)
  simp only [encodeM, fieldBd, fieldAddr, regBits_regField, BitVec.getLsbD_append] at hbit ⊢
  interval_cases i <;> simp_all

/-- An opcode in front of zeros has no bit outside a mask that keeps the opcode. -/
theorem opcode_and_mask (op : BitVec 8) (m : BitVec 24) : (op ++ 0#24) &&& (0xFF#8 ++ m) = op ++ 0#24 := by
  rw [BitVec.and_append, BitVec.zero_and]
  exact congrArg (· ++ 0#24) BitVec.and_allOnes

/-- An opcode in front of zeros has zero operand fields. -/
theorem opcode_extractLsb' (op : BitVec 8) {lo : Nat} (h : lo + 3 ≤ 24) : (op ++ 0#24).extractLsb' lo 3 = 0#3 := by
  rw [BitVec.extractLsb'_append_eq_of_add_le h]
  simp

/-- A format R word with zero `bb` (R72). -/
theorem encodeR_fields_bb {w : Word} {op : BitVec 8} (h : w &&& 0xFF03FFFF#32 = op ++ 0#24) :
    encodeR op (fieldBd w) (fieldBa w) 0 = w := by
  have hbb : fieldBb w = 0 := regField_eq_zero h (by decide) (opcode_extractLsb' op (by omega))
  have hword := encodeR_fields (and_eq_of_and_eq h (by decide) (opcode_and_mask op 0x007FFF#24))
  rwa [hbb] at hword

/-- A format R word with zero `bd` and `bb` (R72). -/
theorem encodeR_fields_bd_bb {w : Word} {op : BitVec 8} (h : w &&& 0xFFE3FFFF#32 = op ++ 0#24) :
    encodeR op 0 (fieldBa w) 0 = w := by
  have hbd : fieldBd w = 0 := regField_eq_zero h (by decide) (opcode_extractLsb' op (by omega))
  have hword := encodeR_fields_bb (and_eq_of_and_eq h (by decide) (opcode_and_mask op 0x03FFFF#24))
  rwa [hbd] at hword

/-- A format M word with zero `bd` (R73). -/
theorem encodeM_fields_bd {w : Word} {op : BitVec 8} (h : w &&& 0xFFE00000#32 = op ++ 0#24) :
    encodeM op 0 (fieldAddr w) = w := by
  have hbd : fieldBd w = 0 := regField_eq_zero h (by decide) (opcode_extractLsb' op (by omega))
  have hword := encodeM_fields (and_eq_of_and_eq h (by decide) (opcode_and_mask op 0#24))
  rwa [hbd] at hword

/-- A format Z word is wholly fixed (R74). -/
theorem encodeZ_fields {w : Word} {op : BitVec 8} (h : w &&& 0xFFFFFFFF#32 = op ++ 0#24) : encodeZ op = w :=
  h.symm.trans BitVec.and_allOnes

/-- The command that a row of the map builds from a word has that very word. -/
theorem encode_build {r : OpcodeRow} (hr : r ∈ opcodeMap) {w : Word} (h : r.selects w = true) :
    encode (r.build w) = w := by
  have hw : w &&& r.mask = r.pattern := beq_iff_eq.mp h
  simp only [opcodeMap, List.mem_cons, List.not_mem_nil, or_false] at hr
  rcases hr with rfl | rfl | rfl | rfl | rfl | rfl | rfl | rfl | rfl | rfl | rfl | rfl | rfl | rfl
  · exact encodeZ_fields hw
  · exact encodeZ_fields hw
  · exact encodeM_fields hw
  · exact encodeM_fields hw
  · exact encodeM_fields_bd hw
  · exact encodeR_fields hw
  · exact encodeR_fields_bb hw
  · exact encodeR_fields_bb hw
  · exact encodeR_fields_bb hw
  · exact encodeR_fields hw
  · exact encodeR_fields hw
  · exact encodeR_fields hw
  · exact encodeR_fields_bd_bb hw
  · exact encodeR_fields_bd_bb hw

/-- Settles O2: the decoder answers the command of a row that the word selects (`selects_of_decode`), and that
command has the word (`encode_build`). -/
theorem encodeOfDecodeIsTheWord : Obligations.EncodeOfDecodeIsTheWord := by
  intro w i h
  obtain ⟨r, hr, hsel, rfl⟩ := selects_of_decode h
  exact encode_build hr hsel

/-- Settles O3: both rows have the word's opcode, and no two rows share one. -/
theorem atMostOneRowSelectsAWord : Obligations.AtMostOneRowSelectsAWord := by
  intro w r hr q hq hselr hselq
  have hop : fieldOp r.pattern = fieldOp q.pattern :=
    (fieldOp_of_selects hr hselr).symm.trans (fieldOp_of_selects hq hselq)
  rw [row_eq_of_fieldOp hr hq hop]

/-- Settles O4: each legal word is that of its command, and the other two have opcodes that no row has. -/
theorem sampleWordsDecode : Obligations.SampleWordsDecode := by
  refine ⟨decode_gfmul 2 0 1, decode_ldb 3 0x10#21, decode_stb 2 0x20#21, decode_duenc 7, decode_xdec 3 2 1,
    decode_clrerr, decode_rejects_zero, ?_⟩
  exact (decode_rejects_iff _).mpr (no_row_of_unlisted_opcode (by decide))

/-! ## LDKEY (44_data_movement_and_system.md R162, R163) -/

/-- LDKEY with the wrong KLEN. -/
theorem execLdkey_of_klen_ne {addr : WordAddr} {s : State} (h : s.klen.toNat ≠ 2 * s.kw) :
    execLdkey addr s = .next (raise .invalidKeyMaterial (encode (.ldkey addr)) s) := by
  rw [execLdkey, if_pos h]

/-- LDKEY of a key that runs past the end of the data memory. -/
theorem execLdkey_of_range {addr : WordAddr} {s : State} (h : s.klen.toNat = 2 * s.kw)
    (hr : 2 ^ 21 < addr.toNat + s.keyWords) :
    execLdkey addr s = .next (raise .addrRange (encode (.ldkey addr)) s) := by
  rw [execLdkey, if_neg (not_not.mpr h)]
  exact if_pos hr

/-- Words `a`, `a+1`, ..., `n` of them, in order: what a range of the data memory reads as (R162,
43_data_unit_codec.md R146). -/
def State.wordsAt (s : State) (a n : Nat) : List Block := (List.range n).map fun j => s.dmemWord (a + j)

@[simp] theorem State.wordsAt_length (s : State) (a n : Nat) : (s.wordsAt a n).length = n := by
  simp [State.wordsAt]

@[simp] theorem State.wordsAt_getElem (s : State) (a n : Nat) {i : Nat} (h : i < (s.wordsAt a n).length) :
    (s.wordsAt a n)[i] = s.dmemWord (a + i) := by
  simp [State.wordsAt]

/-- LDKEY of a key of the right length in the data memory. -/
theorem execLdkey_of_ready {addr : WordAddr} {s : State} (h : s.klen.toNat = 2 * s.kw)
    (hr : addr.toNat + s.keyWords ≤ 2 ^ 21) :
    execLdkey addr s = .next (s.loadKeys (firstSubKey s.kw (s.wordsAt addr.toNat s.keyWords))
      (secondSubKey s.kw (s.wordsAt addr.toNat s.keyWords))) := by
  rcases execLdkey_cases addr s with ⟨hne, -⟩ | ⟨-, hlt, -⟩ | ⟨-, -, he⟩
  · exact absurd h hne
  · exact absurd hr (Nat.not_le.mpr hlt)
  · exact he

/-- A cut of `kw` bits out of the key material in `n` words, from bit `o` on, counted from its first bit: bit `b` of
the cut is bit `o + b` of the key material, which is a bit of word `(o + b) / 128`. -/
theorem keyMaterial_cut_getLsbD (s : State) (a n : Nat) {kw o b : Nat} (hb : b < kw) (ho : o + kw ≤ 128 * n) :
    ((keyMaterial (s.wordsAt a n)).extractLsb' (128 * (s.wordsAt a n).length - (o + kw)) kw).getLsbD (kw - 1 - b) =
      (s.dmemWord (a + (o + b) / 128)).getLsbD (127 - (o + b) % 128) := by
  have hlen := s.wordsAt_length a n
  have hpos : 128 * (s.wordsAt a n).length - (o + kw) + (kw - 1 - b) =
      128 * (s.wordsAt a n).length - 1 - (o + b) := by omega
  have hin : kw - 1 - b < kw := by omega
  rw [BitVec.getLsbD_extractLsb', hpos, keyMaterial_getLsbD _ _ (by omega), State.wordsAt_getElem]
  simp [hin]

/-- The key material is as long as two sub-keys, or longer. -/
theorem two_mul_kw_le (s : State) : 2 * s.kw ≤ 128 * s.keyWords := by
  rw [State.keyWords, ceilDiv128]
  omega

/-- Settles O24: LDKEY loads the two sub-keys (`execLdkey_of_ready`), each a cut out of the key material
(`keyMaterial_cut_getLsbD`). -/
theorem ldkeyLoadsBothSubKeys : Obligations.LdkeyLoadsBothSubKeys := by
  intro addr s
  have hmat := two_mul_kw_le s
  refine ⟨decode_ldkey addr, fun hk hr => ⟨_, execLdkey_of_ready hk hr, OnlyKeys_loadKeys s _ _, rfl, rfl, rfl,
    fun b hb => ?_, fun b hb => ?_⟩⟩
  · have hbit := keyMaterial_cut_getLsbD s addr.toNat s.keyWords (o := 0) hb (by omega)
    rwa [Nat.zero_add, Nat.zero_add] at hbit
  · have hbit := keyMaterial_cut_getLsbD s addr.toNat s.keyWords (o := s.kw) hb (by omega)
    rwa [← two_mul] at hbit

/-- Settles O25: the first two branches of LDKEY raise, with the word of the command. -/
theorem ldkeyRaisesItsErrors : Obligations.LdkeyRaisesItsErrors := fun _ s =>
  ⟨fun hk => ⟨_, execLdkey_of_klen_ne hk, Raised_raise _ _ s⟩,
    fun hk hr => ⟨_, execLdkey_of_range hk hr, Raised_raise _ _ s⟩⟩

end Sys2Proof.Machine
end

section
/-! PROOF. What a command and a step can do, with what makes them do it: one inversion of each, from which the
statements about every step follow. -/

namespace Sys2Proof

/-- The block register that a command writes, if it writes one (10_state.md R21). -/
def Instr.dest : Instr → Option BlockReg
  | .ldb bd _ | .gfmul bd _ _ | .flip bd _ | .twinit bd _ | .twadv bd _ | .twseek bd _ _ | .xenc bd _ _
  | .xdec bd _ _ => some bd
  | .nop | .clrerr | .stb _ _ | .ldkey _ | .duenc _ | .dudec _ => none

/-- The words of the data memory that a command writes in a state, by the first and their number, if it writes any
(44_data_movement_and_system.md R161, 43_data_unit_codec.md R146). -/
def Instr.destWords (s : Machine.State) : Instr → Option (Nat × Nat)
  | .stb _ addr => some (addr.toNat, 1)
  | .duenc _ | .dudec _ => some (s.destAddress, s.unitBlocks)
  | .nop | .clrerr | .ldb _ _ | .ldkey _ | .gfmul _ _ _ | .flip _ _ | .twinit _ _ | .twadv _ _ | .twseek _ _ _
  | .xenc _ _ _ | .xdec _ _ _ => none

namespace Machine

open Sys2Proof.Laws Sys2Proof.Safety

/-! ## A command -/

/-- What a command answers: the updates of `CommandEffect`, each with the commands that make it and what they make it
with. -/
inductive CommandResult (i : Instr) (s : State) : State → Prop where
  | unchanged : CommandResult i s s
  | leavesError : CommandResult i s (leaveError s)
  | raises (e : ErrorName) (he : ErrorRecorded (raise e (encode i) s)) : CommandResult i s (raise e (encode i) s)
  | writesBlock (bd : BlockReg) (v : Block) (hi : i.dest = some bd) : CommandResult i s (s.writeB bd v)
  | loadsKeys (addr : WordAddr) (key1 key2 : Key) (hi : i = .ldkey addr) (hlen : s.klen.toNat = 2 * s.kw)
      (h1 : key1.width = s.kw) (h2 : key2.width = s.kw) : CommandResult i s (s.loadKeys key1 key2)
  | writesRange {t : State} (a : Nat) (vs : List Block) (hi : i.destWords s = some (a, vs.length))
      (h : s.writeRange a vs = some t) : CommandResult i s t

/-- The outcome is a next state that the command can answer. -/
def Answers (i : Instr) (s : State) (o : Host.Outcome State Fault Refusal) : Prop :=
  ∃ t, o = .next t ∧ CommandResult i s t

/-- A keyed command that computes a block and that raises `NoKey` by the table of 60_exceptions.md R176. -/
theorem withKey_answers {i : Instr} {s : State} {bd : BlockReg} (f : State → Block) (hi : i.dest = some bd)
    (he : ErrorRecorded (raise .noKey (encode i) s)) :
    Answers i s (withKey (encode i) s fun s => .next (s.writeB bd (f s))) := by
  cases hk : s.keyv with
  | false => exact ⟨_, withKey_false hk, .raises _ he⟩
  | true => exact ⟨_, withKey_true hk, .writesBlock _ _ hi⟩

/-- LDKEY's three outcomes. -/
theorem execLdkey_answers (addr : WordAddr) (s : State) : Answers (.ldkey addr) s (execLdkey addr s) := by
  rcases execLdkey_cases addr s with ⟨-, h⟩ | ⟨-, -, h⟩ | ⟨hk, -, h⟩
  · exact ⟨_, h, .raises _ (.inr (.inr (.inl ⟨rfl, addr, rfl⟩)))⟩
  · exact ⟨_, h, .raises _ (.inr (.inr (.inr (.inr (.inr (.inr (.inl ⟨rfl, addr, 0, .inl rfl⟩)))))))⟩
  · exact ⟨_, h, .loadsKeys addr _ _ rfl hk rfl rfl⟩

/-- The errors of the checks of R143 are those that the table of 60_exceptions.md R176 has for DUENC and DUDEC. -/
theorem errorRecorded_of_dataUnitError {i : Instr} {ba : BlockReg} {s : State} {e : ErrorName}
    (hi : i = .duenc ba ∨ i = .dudec ba) (he : dataUnitError s = some e) : ErrorRecorded (raise e (encode i) s) := by
  have hword : encode i = encode (.duenc ba) ∨ encode i = encode (.dudec ba) :=
    hi.imp (congrArg encode) (congrArg encode)
  unfold dataUnitError at he
  split_ifs at he <;> cases he
  · exact .inr (.inl ⟨rfl, ba, hword⟩)
  · exact .inr (.inr (.inr (.inr (.inr (.inl ⟨rfl, 0, ba, 0, .inr (.inr (.inr hword))⟩)))))
  · exact .inr (.inr (.inr (.inr (.inr (.inr (.inl ⟨rfl, 0, ba, .inr hword⟩))))))
  · exact .inr (.inr (.inr (.inr (.inr (.inr (.inr ⟨rfl, ba, hword⟩))))))

/-- DUENC and DUDEC raise the error of a check, or write as many words as they read. -/
theorem exec_dataUnit_answers {i : Instr} {ba : BlockReg} (s : State) (hi : i = .duenc ba ∨ i = .dudec ba) :
    Answers i s (exec i s) := by
  obtain ⟨f, hf, hexec⟩ := exec_dataUnit s hi
  rw [hexec]
  cases he : dataUnitError s with
  | some e => exact ⟨_, dataUnitCommand_of_error he, .raises e (errorRecorded_of_dataUnitError hi he)⟩
  | none =>
    have hready := (dataUnitError_eq_none s).mp he
    have hlen := hf.toWords_length hready.1.1
      (ws := (List.range s.unitBlocks).map fun j => s.dmemWord (s.sourceAddress + j)) (by simp [State.unitBlocks])
    obtain ⟨t, ht, hw⟩ := dataUnitCommand_of_ready (encode i) f s hready hlen
    refine ⟨t, ht, .writesRange _ _ ?_ hw⟩
    rw [hlen]
    rcases hi with rfl | rfl <;> rfl

/-- Every command answers a next state, and one that is its own. -/
theorem exec_answers (i : Instr) (s : State) : Answers i s (exec i s) := by
  have hnoKey : ∀ bd ba bb, encode i = encode (.twinit bd ba) ∨ encode i = encode (.xenc bd ba bb) ∨
      encode i = encode (.xdec bd ba bb) → ErrorRecorded (raise .noKey (encode i) s) := fun bd ba bb h =>
    .inr (.inr (.inr (.inr (.inr (.inl ⟨rfl, bd, ba, bb, h.imp_right (Or.imp_right .inl)⟩)))))
  cases i with
  | nop => exact ⟨_, rfl, .unchanged⟩
  | clrerr => exact ⟨_, rfl, .leavesError⟩
  | ldb bd addr => exact ⟨_, execLdb_eq bd addr s, .writesBlock _ _ rfl⟩
  | stb bs addr =>
    have hwrite : s.writeRange addr.toNat [s.readB bs] =
        some { s with mem := s.mem.storeWord addr.toNat (s.readB bs) } := by
      rw [State.writeRange, s.memWrite_of_lt _ addr.isLt]; rfl
    exact ⟨_, execStb_eq bs addr s, .writesRange _ _ rfl hwrite⟩
  | ldkey addr => exact execLdkey_answers addr s
  | gfmul bd ba bb => exact ⟨_, rfl, .writesBlock _ _ rfl⟩
  | flip bd ba => exact ⟨_, rfl, .writesBlock _ _ rfl⟩
  | twinit bd ba => rw [exec, execTwinit]; exact withKey_answers _ rfl (hnoKey bd ba 0 (.inl rfl))
  | twadv bd ba => exact ⟨_, rfl, .writesBlock _ _ rfl⟩
  | twseek bd ba bb => exact ⟨_, rfl, .writesBlock _ _ rfl⟩
  | xenc bd ba bb => rw [exec, execXenc]; exact withKey_answers _ rfl (hnoKey bd ba bb (.inr (.inl rfl)))
  | xdec bd ba bb => rw [exec, execXdec]; exact withKey_answers _ rfl (hnoKey bd ba bb (.inr (.inr rfl)))
  | duenc ba => exact exec_dataUnit_answers s (.inl rfl)
  | dudec ba => exact exec_dataUnit_answers s (.inr rfl)

/-! ## A step -/

/-- What a step answers, by the host's next action. Idle apart, it happens in the state that has taken the action off
the queue. -/
inductive StepResult (s : State) : State → Prop where
  | idle (h : s.host = []) : StepResult s s
  /-- A reset. -/
  | resets {rest : List HostAction} (h : s.host = .reset :: rest) : StepResult s (resetCore (s.taking rest))
  /-- A host write of a word. -/
  | stores {a : WordAddr} {v : Block} {rest : List HostAction} (h : s.host = .memWrite a v :: rest) :
      StepResult s { s.taking rest with mem := s.mem.storeWord a.toNat v }
  /-- A read, with its reply. -/
  | replies {a : HostAction} {rest : List HostAction} (r : HostReply) (h : s.host = a :: rest) :
      StepResult s { s.taking rest with reply := r }
  /-- A write to a register that ignores it, or of a word that is dropped. -/
  | ignores {a : HostAction} {rest : List HostAction} (h : s.host = a :: rest) : StepResult s (s.taking rest)
  | setsLen {v : Word} {rest : List HostAction} (h : s.host = .regWrite PortName.len.offset v :: rest) :
      StepResult s { s.taking rest with len := v }
  | setsSrc {v : Word} {rest : List HostAction} (h : s.host = .regWrite PortName.src.offset v :: rest) :
      StepResult s { s.taking rest with src := v }
  | setsDst {v : Word} {rest : List HostAction} (h : s.host = .regWrite PortName.dst.offset v :: rest) :
      StepResult s { s.taking rest with dst := v }
  | setsKlen {v : Word} {rest : List HostAction} (h : s.host = .regWrite PortName.klen.offset v :: rest) :
      StepResult s { s.taking rest with klen := v }
  /-- CLRERR in the error state. -/
  | leavesError {rest : List HostAction} (h : s.host = .regWrite PortName.cmd.offset 0x02000000#32 :: rest) :
      StepResult s (leaveError (s.taking rest))
  /-- A word of a command with no error pending. -/
  | executes {w : Word} {rest : List HostAction} {i : Instr} {t : State}
      (h : s.host = .regWrite PortName.cmd.offset w :: rest) (hf : s.fatal = false) (he : s.errcode = 0#8)
      (hd : decode w = .ok i) (hi : CommandResult i (s.taking rest) t) : StepResult s t
  /-- Any other word with no error pending. -/
  | rejects {w : Word} {rest : List HostAction} {why : Illegal}
      (h : s.host = .regWrite PortName.cmd.offset w :: rest) (hf : s.fatal = false) (he : s.errcode = 0#8)
      (hd : decode w = .error why) : StepResult s (raise .illegalCommand w (s.taking rest))

/-- The step at a write to CMD (30_encoding.md R70). -/
theorem commandWrite_stepResult {s : State} {w : Word} {rest : List HostAction}
    (h : s.host = .regWrite PortName.cmd.offset w :: rest) :
    ∃ t, commandWrite w (s.taking rest) = .next t ∧ StepResult s t := by
  rcases commandWrite_cases w (s.taking rest) with
    ⟨-, hc⟩ | ⟨-, -, rfl, hc⟩ | ⟨hf, he, i, hd, hc⟩ | ⟨hf, he, why, hd, hc⟩
  · exact ⟨_, hc, .ignores h⟩
  · exact ⟨_, hc, .leavesError h⟩
  · obtain ⟨t, ht, hi⟩ := exec_answers i (s.taking rest)
    exact ⟨t, hc.trans ht, .executes h hf he hd hi⟩
  · exact ⟨_, hc, .rejects h hf he hd⟩

/-- The step at a write to the register port (10_state.md R32 to R41). -/
theorem portWrite_stepResult {s : State} {o : PortOffset} {v : Word} {rest : List HostAction}
    (h : s.host = .regWrite o v :: rest) : ∃ t, portWrite o v (s.taking rest) = .next t ∧ StepResult s t := by
  rcases portWrite_cases o v (s.taking rest) with
    ⟨rfl, hp⟩ | ⟨rfl, hp⟩ | ⟨rfl, hp⟩ | ⟨rfl, hp⟩ | ⟨rfl, hp⟩ | hp <;> rw [hp]
  · exact commandWrite_stepResult h
  · exact ⟨_, rfl, .setsLen h⟩
  · exact ⟨_, rfl, .setsSrc h⟩
  · exact ⟨_, rfl, .setsDst h⟩
  · exact ⟨_, rfl, .setsKlen h⟩
  · exact ⟨_, rfl, .ignores h⟩

/-- Every step answers a next state, and one that the host's next action explains. -/
theorem step_result (s : State) : ∃ t, step s = .next t ∧ StepResult s t := by
  rcases step_cases s with ⟨h, hs⟩ | ⟨a, rest, h, hs⟩
  · exact ⟨s, hs, .idle h⟩
  · rw [hs]
    cases a with
    | regWrite o v => exact portWrite_stepResult h
    | regRead o => exact ⟨_, rfl, .replies _ h⟩
    | memWrite a v => exact ⟨_, hostAct_memWrite a v _, .stores h⟩
    | memRead a => exact ⟨_, hostAct_memRead a _, .replies _ h⟩
    | reset => exact ⟨_, rfl, .resets h⟩

/-- The inversion of a step. -/
theorem stepResult_of_step {s t : State} (h : step s = .next t) : StepResult s t := by
  obtain ⟨t', ht, hr⟩ := step_result s
  cases ht.symm.trans h
  exact hr

/-- Settles O7: `step_result`. -/
theorem everyStepAnswersANextState : Obligations.EveryStepAnswersANextState :=
  fun s => (step_result s).imp fun _ h => h.1

/-! ## The dispatch at a step -/

/-- Settles O5: a write to CMD is the dispatch (`step_command`), which executes a word that decodes. -/
theorem stepRunsTheDecodedCommand : Obligations.StepRunsTheDecodedCommand := fun _ _ _ _ h hf he hd =>
  (step_command h).trans (commandWrite_decoded hf he hd)

/-- Settles O8: a write to CMD is the dispatch (`step_command`), which drops the word in FATAL and, unless it is
CLRERR's, in the error state. -/
theorem wordsAreDroppedInTheErrorState : Obligations.WordsAreDroppedInTheErrorState := by
  intro s w rest h hdrop
  rw [step_command h]
  rcases hdrop with hf | ⟨he, hw⟩
  · exact commandWrite_fatal hf
  · exact commandWrite_dropped he hw

end Machine

end Sys2Proof
end

section
/-! PROOF. Reset and the invariant: reset establishes it, every step keeps it, so a FATAL core stays FATAL; and what
STATUS reads. -/

namespace Sys2Proof.Machine

open Sys2Proof.Laws Sys2Proof.Safety

/-! ## Reset (10_state.md R42) -/

/-- The reset table meets the invariant for every parameter value: the two values of ERRCODE go with the two values of
FATAL. -/
theorem inv_afterReset (p : Params) (n : Nat) (q : List HostAction) : Inv (State.afterReset p n q) := by
  by_cases h : p.cblk = Config.blockBits
  · have hfatal : (State.afterReset p n q).fatal = false := by simp [State.afterReset, h]
    exact ⟨rfl, ⟨rfl, rfl⟩, fun _ => ⟨rfl, rfl⟩, ⟨rfl, fun hf => absurd (hfatal.symm.trans hf) Bool.false_ne_true⟩,
      .inl ⟨if_pos h, rfl⟩⟩
  · have hfatal : (State.afterReset p n q).fatal = true := by simp [State.afterReset, h]
    exact ⟨rfl, ⟨rfl, rfl⟩, fun _ => ⟨rfl, rfl⟩, ⟨rfl, fun _ => ⟨if_neg h, rfl, rfl⟩⟩,
      .inr (.inr (.inr (.inl ⟨if_neg h, rfl, hfatal⟩)))⟩

/-- Settles O12: both states are `State.afterReset` with some parameters. -/
theorem resetEstablishesTheInvariant : Obligations.ResetEstablishesTheInvariant :=
  ⟨inv_afterReset _ _ _, fun _ => inv_afterReset _ _ _⟩

/-- Settles O11: the step is `resetCore`, field by field. -/
theorem resetGivesTheTable : Obligations.ResetGivesTheTable := by
  intro s rest h
  refine ⟨resetCore (s.taking rest), step_act h, State.readB_resetCore _, rfl, rfl, rfl, rfl, rfl, rfl, rfl, rfl,
    fun hc => ⟨decide_eq_true hc, if_neg hc⟩, fun hc => ⟨decide_eq_false (not_not.mpr hc), if_pos hc⟩, fun _ => rfl,
    rfl, rfl, rfl⟩

/-! ## The updates keep the invariant -/

/-- The invariant does not speak of the block registers, the port registers and the model's own fields but the
parameters. -/
theorem inv_with {s : State} (hs : Inv s) (blocks : Vector Block 8) (len src dst klen : Word) (resets : Nat)
    (host : List HostAction) (reply : HostReply) :
    Inv { s with
      blocks := blocks, len := len, src := src, dst := dst, klen := klen, resets := resets, host := host,
      reply := reply } :=
  ⟨hs.memory, hs.keyWidths, hs.noKeyIsZero, hs.fatal, hs.errorRecorded⟩

theorem inv_taking {s : State} (hs : Inv s) (rest : List HostAction) : Inv (s.taking rest) :=
  inv_with hs _ _ _ _ _ _ _ _

/-- A data memory in canonical form. -/
theorem inv_with_mem {s : State} (hs : Inv s) {m : Memory} (hm : m.wf = true) : Inv { s with mem := m } :=
  ⟨hm, hs.keyWidths, hs.noKeyIsZero, hs.fatal, hs.errorRecorded⟩

theorem inv_writeRange {s t : State} {a : Nat} {vs : List Block} (hs : Inv s) (h : s.writeRange a vs = some t) :
    Inv t := by
  obtain ⟨-, hmem, -, -, hwf⟩ := State.writeRange_cases h
  rw [hmem]
  exact inv_with_mem hs (hwf hs.memory)

/-- An error of the table of 60_exceptions.md R176, raised in a core that is not FATAL. -/
theorem inv_raise {s : State} {e : ErrorName} {w : Word} (hs : Inv s) (hf : s.fatal = false)
    (he : ErrorRecorded (raise e w s)) : Inv (raise e w s) :=
  ⟨hs.memory, hs.keyWidths, hs.noKeyIsZero, ⟨hs.fatal.1, fun h => absurd (hf.symm.trans h) Bool.false_ne_true⟩, he⟩

theorem inv_leaveError {s : State} (hs : Inv s) : Inv (leaveError s) := by
  by_cases hf : s.fatal = true
  · rwa [leaveError_of_fatal hf]
  · rw [leaveError, if_neg hf]
    exact ⟨hs.memory, hs.keyWidths, hs.noKeyIsZero, ⟨hs.fatal.1, fun h => absurd h hf⟩, .inl ⟨rfl, rfl⟩⟩

/-- Two keys of KW bits, loaded in a core that is not FATAL. -/
theorem inv_loadKeys {s : State} {key1 key2 : Key} (hs : Inv s) (hf : s.fatal = false) (h1 : key1.width = s.kw)
    (h2 : key2.width = s.kw) : Inv (s.loadKeys key1 key2) :=
  ⟨hs.memory, ⟨h1, h2⟩, fun h => absurd h.symm Bool.false_ne_true,
    ⟨hs.fatal.1, fun h => absurd (hf.symm.trans h) Bool.false_ne_true⟩, hs.errorRecorded⟩

/-- A command executed in a core that is not FATAL keeps the invariant. -/
theorem CommandResult.inv {i : Instr} {s t : State} (h : CommandResult i s t) (hs : Inv s) (hf : s.fatal = false) :
    Inv t := by
  cases h with
  | unchanged => exact hs
  | leavesError => exact inv_leaveError hs
  | raises e he => exact inv_raise hs hf he
  | writesBlock bd v _ => exact inv_with hs _ _ _ _ _ _ _ _
  | loadsKeys _ key1 key2 _ _ h1 h2 => exact inv_loadKeys hs hf h1 h2
  | writesRange a vs _ h => exact inv_writeRange hs h

/-- Settles O13, by the cases of a step: a reset establishes the invariant, and every other update keeps it. -/
theorem everyStepKeepsTheInvariant : Obligations.EveryStepKeepsTheInvariant := by
  intro s t hs h
  have htaking := inv_taking hs
  cases stepResult_of_step h with
  | idle _ => exact hs
  | resets _ => exact inv_afterReset _ _ _
  | stores _ => exact inv_with_mem (htaking _) (Memory.wf_storeWord s.mem _ _ hs.memory (absoluteAddress_lt _))
  | replies r _ => exact inv_with hs _ _ _ _ _ _ _ _
  | ignores _ => exact htaking _
  | setsLen _ => exact inv_with hs _ _ _ _ _ _ _ _
  | setsSrc _ => exact inv_with hs _ _ _ _ _ _ _ _
  | setsDst _ => exact inv_with hs _ _ _ _ _ _ _ _
  | setsKlen _ => exact inv_with hs _ _ _ _ _ _ _ _
  | leavesError _ => exact inv_leaveError (htaking _)
  | executes _ hf _ _ hi => exact hi.inv (htaking _) hf
  | rejects _ hf _ hd =>
    exact inv_raise (htaking _) hf (.inr (.inr (.inr (.inr (.inl ⟨rfl, _, hd⟩)))))

/-! ## STATUS and the FATAL core -/

/-- In a FATAL core that meets the invariant STATUS reads FATAL, ERR and ERRCODE 3 (60_exceptions.md R182). -/
theorem status_of_fatal {s : State} (hs : Inv s) (hf : s.fatal = true) : s.status = 0x00000306#32 := by
  obtain ⟨hcode, -, hkeyv⟩ := hs.fatal.2 hf
  rw [State.status, State.err, hf, hcode, hkeyv]
  rfl

/-- Bit 0 of STATUS is KEYV (10_state.md R33). -/
theorem State.status_getLsbD_keyv (s : State) : s.status.getLsbD 0 = s.keyv := by
  simp only [State.status, BitVec.getLsbD_append]
  simp

/-- Bit 2 of STATUS is FATAL (10_state.md R33). -/
theorem State.status_getLsbD_fatal (s : State) : s.status.getLsbD 2 = s.fatal := by
  simp only [State.status, BitVec.getLsbD_append]
  simp

/-- Bits 15:8 of STATUS are ERRCODE (10_state.md R33). -/
theorem State.status_errcode (s : State) : s.status.extractLsb' 8 8 = s.errcode := by
  refine BitVec.eq_of_getLsbD_eq fun i hi => ?_
  simp only [State.status, BitVec.getLsbD_extractLsb', BitVec.getLsbD_append]
  interval_cases i <;> simp

/-- Bits 7:3 and 31:16 of STATUS are zero (10_state.md R33). -/
theorem State.status_zeros (s : State) : s.status.extractLsb' 3 5 = 0#5 ∧ s.status.extractLsb' 16 16 = 0#16 := by
  refine ⟨BitVec.eq_of_getLsbD_eq fun i hi => ?_, BitVec.eq_of_getLsbD_eq fun i hi => ?_⟩
  all_goals simp only [State.status, BitVec.getLsbD_extractLsb', BitVec.getLsbD_append]
  all_goals interval_cases i <;> simp

/-- Settles O14: the reply is STATUS, field by field, and a write to its offset is ignored. -/
theorem statusReadsItsFields : Obligations.StatusReadsItsFields := by
  intro s rest
  obtain ⟨hlow, hhigh⟩ := s.status_zeros
  exact ⟨fun h => ⟨s.status, step_regRead h, s.status_getLsbD_keyv, s.status_getLsbD_err, s.status_getLsbD_fatal, hlow,
    s.status_errcode, hhigh, status_of_fatal⟩, fun v h => step_regWrite h⟩

/-- A FATAL core that meets the invariant is FATAL after a step: FATAL is a function of CBLK, which no step
changes. -/
theorem step_fatal {s t : State} (hs : Inv s) (h : step s = .next t) : t.fatal = s.fatal := by
  rw [(everyStepKeepsTheInvariant s t hs h).fatal.1, hs.fatal.1, step_params h]

/-- A run of `k + 1` steps is a step and a run of `k`. -/
theorem run_succ {s t : State} (k : Nat) (h : step s = .next t) :
    Sys2Proof.core.run (k + 1) s = Sys2Proof.core.run k t := by
  have hstep : Sys2Proof.core.step s = .next t := h
  simp only [Host.Core.run, hstep]

/-- What every step keeps, any number of steps keeps. -/
theorem run_keeps {P : State → Prop} (hstep : ∀ s t, P s → step s = .next t → P t) (k : Nat) {s t : State} (hs : P s)
    (h : Sys2Proof.core.run k s = .next t) : P t := by
  induction k generalizing s with
  | zero => cases h; exact hs
  | succ k ih =>
    obtain ⟨u, hu⟩ := everyStepAnswersANextState s
    exact ih (hstep s u hs hu) ((run_succ k hu).symm.trans h)

/-- Settles O10: every step keeps the invariant and FATAL, and STATUS reads 0x00000306 in every state with both. -/
theorem fatalCoreStaysFatal : Obligations.FatalCoreStaysFatal := by
  intro k s t hs hf h
  have hkeeps : ∀ u v, Inv u ∧ u.fatal = true → step u = .next v → Inv v ∧ v.fatal = true := fun u v hu hv =>
    ⟨everyStepKeepsTheInvariant u v hu.1 hv, (step_fatal hu.1 hv).trans hu.2⟩
  obtain ⟨ht, hft⟩ := run_keeps hkeeps k ⟨hs, hf⟩ h
  obtain ⟨hcode, hcmd, -⟩ := ht.fatal.2 hft
  exact ⟨hft, hcode, hcmd, status_of_fatal ht hft⟩

end Sys2Proof.Machine
end

section
/-! PROOF. What the host's ports and what steps leave alone: the statements about the port registers and the host's
accesses of the data memory, and about every step of the whole machine. -/

namespace Sys2Proof.Machine

open Sys2Proof.Laws Sys2Proof.Safety

/-! ## The register port and the memory port -/

/-- Settles O17: each action is its port's access, in the state that has taken the action. -/
theorem portRegistersReadAndWrite : Obligations.PortRegistersReadAndWrite := fun _ _ _ =>
  ⟨step_regWrite, step_regWrite, step_regWrite, step_regWrite, step_regWrite, step_regRead, step_regRead, step_regRead,
    step_regRead, step_regRead, step_regRead⟩

/-- The host's read of a word replies it and changes nothing else (20_memory.md R55). -/
theorem step_memRead {s : State} {a : WordAddr} {rest : List HostAction} (h : s.host = .memRead a :: rest) :
    step s = .next { s.taking rest with reply := .mem (s.dmemWord a.toNat) } :=
  (step_act h).trans (hostAct_memRead a _)

/-- The host's write of a word stores it and changes nothing else (20_memory.md R55). -/
theorem step_memWrite {s : State} {a : WordAddr} {v : Block} {rest : List HostAction}
    (h : s.host = .memWrite a v :: rest) :
    step s = .next { s.taking rest with mem := s.mem.storeWord a.toNat v } :=
  (step_act h).trans (hostAct_memWrite a v _)

/-- Taking an action off the queue and setting the reply changes nothing of the core. -/
theorem sameCore_reply (s : State) (rest : List HostAction) (r : HostReply) :
    SameCore s { s.taking rest with reply := r } :=
  SameCore_taking s rest

/-- Settles O18: the write is `storeWord`, after which the word reads as what was stored. -/
theorem hostMemoryWriteThenRead : Obligations.HostMemoryWriteThenRead := by
  intro s rest a v h
  have hword : State.dmemWord { s.taking rest with mem := s.mem.storeWord a.toNat v } a.toNat = v :=
    (State.dmemWord_storeWord (s.taking rest) a.toNat v a.toNat).trans (if_pos rfl)
  refine ⟨_, step_memWrite h, OnlyWords_storeWord (s.taking rest) a.toNat v, hword, fun rest' hrest => ?_⟩
  exact ⟨_, step_memRead hrest, congrArg HostReply.mem hword, sameCore_reply _ rest' _, rfl⟩

/-- Settles O19: a read changes the queue and the reply only, so the word reads the same again. -/
theorem hostMemoryReadsAreStable : Obligations.HostMemoryReadsAreStable := fun s rest _ h =>
  ⟨_, step_memRead h, rfl, sameCore_reply s rest _, rfl, fun rest' hrest =>
    ⟨_, step_memRead hrest, rfl, sameCore_reply s rest' _, rfl⟩⟩

/-! ## What a command leaves alone -/

/-- A block register reads alike where the registers are alike. -/
theorem State.readB_congr {s t : State} (h : t.blocks = s.blocks) (r : BlockReg) : t.readB r = s.readB r :=
  congrArg (fun b : Vector Block 8 => b[r]) h

/-- No command writes the port registers, the parameters or the host's queue. -/
theorem CommandResult.samePort {i : Instr} {s t : State} (h : CommandResult i s t) :
    SamePort s t ∧ t.params = s.params ∧ t.host = s.host := by
  cases h with
  | unchanged => exact ⟨⟨rfl, rfl, rfl, rfl⟩, rfl, rfl⟩
  | leavesError => simp [SamePort]
  | raises e _ => exact ⟨⟨rfl, rfl, rfl, rfl⟩, rfl, rfl⟩
  | writesBlock bd v _ => exact ⟨⟨rfl, rfl, rfl, rfl⟩, rfl, rfl⟩
  | loadsKeys _ key1 key2 _ _ _ _ => exact ⟨⟨rfl, rfl, rfl, rfl⟩, rfl, rfl⟩
  | writesRange a vs _ h =>
    obtain ⟨-, hmem, -⟩ := State.writeRange_cases h
    rw [hmem]
    exact ⟨⟨rfl, rfl, rfl, rfl⟩, rfl, rfl⟩

/-- A command writes its destination register only. -/
theorem CommandResult.readB_eq {i : Instr} {s t : State} {r : BlockReg} (h : CommandResult i s t)
    (hr : i.dest ≠ some r) : t.readB r = s.readB r := by
  cases h with
  | unchanged => rfl
  | leavesError => exact State.readB_congr (State.leaveError_blocks s) r
  | raises e _ => rfl
  | writesBlock bd v hi => exact State.readB_writeB_ne s v fun hbd => hr (hbd ▸ hi)
  | loadsKeys _ key1 key2 _ _ _ _ => rfl
  | writesRange a vs _ h => exact (OnlyWords_writeRange h).1 r

/-- A command leaves the keys, unless it is LDKEY with the right KLEN, which then sets KEYV. -/
theorem CommandResult.sameKeys_or {i : Instr} {s t : State} (h : CommandResult i s t) :
    SameKeys s t ∨ ∃ addr, i = .ldkey addr ∧ s.klen.toNat = 2 * s.kw ∧ t.keyv = true := by
  cases h with
  | unchanged => exact .inl ⟨rfl, rfl, rfl⟩
  | leavesError => exact .inl (OnlyErrorRegisters_leaveError s).2.1
  | raises e _ => exact .inl ⟨rfl, rfl, rfl⟩
  | writesBlock bd v _ => exact .inl ⟨rfl, rfl, rfl⟩
  | loadsKeys addr key1 key2 hi hlen _ _ => exact .inr ⟨addr, hi, hlen, rfl⟩
  | writesRange a vs _ h => exact .inl (OnlyWords_writeRange h).2.1

/-- A command changes cells of its destination words only. -/
theorem CommandResult.dmemByte_eq {i : Instr} {s t : State} {c : Nat} (h : CommandResult i s t)
    (hc : ∀ a n, i.destWords s = some (a, n) → ¬(16 * a ≤ c ∧ c < 16 * (a + n))) : t.dmemByte c = s.dmemByte c := by
  cases h with
  | unchanged => rfl
  | leavesError => exact State.dmemByte_congr (by simp) (by simp) c
  | raises e _ => rfl
  | writesBlock bd v _ => rfl
  | loadsKeys _ key1 key2 _ _ _ _ => rfl
  | writesRange a vs hi h =>
    obtain ⟨-, -, hout, -⟩ := State.writeRange_cases h
    exact hout c (hc a vs.length hi)

/-- With no error pending a command that leaves one has raised it. -/
theorem CommandResult.raised {i : Instr} {s t : State} (h : CommandResult i s t) (hs : s.errcode = 0#8)
    (ht : t.errcode ≠ 0#8) : ∃ e, t = raise e (encode i) s := by
  cases h with
  | unchanged => exact absurd hs ht
  | leavesError => exact absurd (by simp [hs]) ht
  | raises e _ => exact ⟨e, rfl⟩
  | writesBlock bd v _ => exact absurd hs ht
  | loadsKeys _ key1 key2 _ _ _ _ => exact absurd hs ht
  | writesRange a vs _ h =>
    obtain ⟨-, -, ⟨hcode, -, -⟩, -⟩ := OnlyWords_writeRange h
    exact absurd (hcode.trans hs) ht

/-! ## The error state (60_exceptions.md R175, R180, R181) -/

/-- With no error pending a step leaves one only as a reset or by `raise` at the write of the word recorded. -/
theorem StepResult.raised {s t : State} (h : StepResult s t) (hs : s.errcode = 0#8) (ht : t.errcode ≠ 0#8) :
    (∃ rest, s.host = .reset :: rest) ∨
      ∃ e w rest, s.host = .regWrite PortName.cmd.offset w :: rest ∧ t = raise e w (s.taking rest) := by
  cases h with
  | resets h => exact .inl ⟨_, h⟩
  | executes h _ _ hd hi =>
    obtain ⟨e, rfl⟩ := hi.raised hs ht
    exact .inr ⟨e, _, _, h, by rw [encodeOfDecodeIsTheWord _ _ hd]⟩
  | rejects h _ _ _ => exact .inr ⟨.illegalCommand, _, _, h, rfl⟩
  | leavesError _ => exact absurd (by simp [hs]) ht
  | idle _ | stores _ | replies _ _ | ignores _ | setsLen _ | setsSrc _ | setsDst _ | setsKlen _ =>
    exact absurd hs ht

/-- The error registers change only at a reset or a write of CMD; while an error is pending, only at a reset or the
write of CLRERR's word to CMD. -/
theorem StepResult.errorRegisters {s t : State} (h : StepResult s t) :
    (t.errcode = s.errcode ∧ t.errcmd = s.errcmd) ∨ (∃ rest, s.host = .reset :: rest) ∨
      ∃ w rest, s.host = .regWrite PortName.cmd.offset w :: rest ∧ (s.errcode ≠ 0#8 → w = 0x02000000#32) := by
  cases h with
  | resets h => exact .inr (.inl ⟨_, h⟩)
  | leavesError h => exact .inr (.inr ⟨_, _, h, fun _ => rfl⟩)
  | executes h _ he _ _ => exact .inr (.inr ⟨_, _, h, absurd he⟩)
  | rejects h _ he _ => exact .inr (.inr ⟨_, _, h, absurd he⟩)
  | idle _ | stores _ | replies _ _ | ignores _ | setsLen _ | setsSrc _ | setsDst _ | setsKlen _ =>
    exact .inl ⟨rfl, rfl⟩

/-- Settles O9: `StepResult.errorRegisters` and `StepResult.raised`. -/
theorem firstErrorIsKept : Obligations.FirstErrorIsKept := by
  refine ⟨fun s t h => ?_, fun s t hs h ht => ?_, fun s t hs h => ?_⟩
  · exact (stepResult_of_step h).errorRegisters.imp_right
      (Or.imp_right fun ⟨w, rest, hw, _⟩ => ⟨w, rest, hw⟩)
  · refine ((stepResult_of_step h).raised hs ht).imp_right ?_
    rintro ⟨e, w, rest, hw, rfl⟩
    exact ⟨e, w, rest, hw, Raised_raise e w _⟩
  · refine (stepResult_of_step h).errorRegisters.imp_right (Or.imp_right ?_)
    rintro ⟨w, rest, hw, hclr⟩
    exact ⟨rest, hclr hs ▸ hw⟩

/-- Leaving an error that was raised with no error pending gives the state before it back (R181). -/
theorem leaveError_raise {s : State} (e : ErrorName) (w : Word) (hf : s.fatal = false) (hcode : s.errcode = 0#8)
    (hcmd : s.errcmd = 0#32) : leaveError (raise e w s) = s := by
  have hn : ¬(raise e w s).fatal = true := Bool.eq_false_iff.mp hf
  rw [leaveError, if_neg hn, raise, ← hcode, ← hcmd]

/-- Settles O54: the error was raised (`StepResult.raised`), and CLRERR leaves it (`leaveError_raise`). -/
theorem clearedErrorLeavesNoTrace : Obligations.ClearedErrorLeavesNoTrace := by
  intro s t w rest hf hcode hcmd hhost h ht
  rcases (stepResult_of_step h).raised hcode ht with ⟨rest', hreset⟩ | ⟨e, w', rest', hw, rfl⟩
  · cases hhost.symm.trans hreset
  · cases hhost.symm.trans hw
    have hclr : (raise e w (s.taking (.regWrite PortName.cmd.offset 0x02000000#32 :: rest))).host =
        .regWrite PortName.cmd.offset 0x02000000#32 :: rest := rfl
    rw [step_command hclr, commandWrite_clrerr_word, exec_clrerr]
    exact congrArg Host.Outcome.next (leaveError_raise (s := s.taking rest) e w hf hcode hcmd)

/-! ## Who writes what -/

/-- The commands with a destination register (10_state.md R21). -/
theorem Instr.eq_of_dest {i : Instr} {r : BlockReg} (h : i.dest = some r) :
    (∃ a, i = .ldb r a) ∨ (∃ a b, i = .gfmul r a b) ∨ (∃ a, i = .flip r a) ∨ (∃ a, i = .twinit r a) ∨
      (∃ a, i = .twadv r a) ∨ (∃ a b, i = .twseek r a b) ∨ (∃ a b, i = .xenc r a b) ∨ ∃ a b, i = .xdec r a b := by
  cases i <;> cases h <;> simp

/-- Settles O48: a step that is no reset writes a block register only as a command (`StepResult`), which writes its
destination only (`CommandResult.readB_eq`). -/
theorem blockRegistersAreWrittenOnlyByTheirCommands : Obligations.BlockRegistersAreWrittenOnlyByTheirCommands := by
  intro s t r hstep hne
  cases stepResult_of_step hstep with
  | resets h => exact .inl ⟨_, h⟩
  | executes h _ _ hd hi => exact .inr ⟨_, _, _, h, hd, Instr.eq_of_dest (not_imp_comm.mp hi.readB_eq hne)⟩
  | leavesError _ => exact (hne (State.readB_congr (State.leaveError_blocks _) r)).elim
  | stores _ => exact (hne ((OnlyWords_storeWord (s.taking _) _ _).1 r)).elim
  | idle _ | replies _ _ | ignores _ | setsLen _ | setsSrc _ | setsDst _ | setsKlen _ | rejects _ _ _ _ =>
    exact absurd rfl hne

/-- Settles O49: a step that is no reset writes the keys only as a command (`StepResult`), which is then LDKEY
(`CommandResult.sameKeys_or`) and has the word that was written. -/
theorem keysAreWrittenOnlyByLdkeyAndReset : Obligations.KeysAreWrittenOnlyByLdkeyAndReset := by
  intro s t hstep
  cases stepResult_of_step hstep with
  | resets h => exact .inr (.inl ⟨_, h⟩)
  | @executes w rest i _ h hf he hd hi =>
    refine hi.sameKeys_or.imp_right fun ⟨addr, hldkey, hlen, hkeyv⟩ => .inr ⟨rest, addr, ?_, hf, he, hlen, hkeyv⟩
    rw [← hldkey, encodeOfDecodeIsTheWord w i hd]
    exact h
  | leavesError _ => exact .inl (OnlyErrorRegisters_leaveError _).2.1
  | idle _ | stores _ | replies _ _ | ignores _ | setsLen _ | setsSrc _ | setsDst _ | setsKlen _ | rejects _ _ _ _ =>
    exact .inl ⟨rfl, rfl, rfl⟩

/-- Settles O50: of the steps that are no resets, the four writes of the port registers change one each, and a command
changes none (`CommandResult.samePort`). -/
theorem portRegistersAreWrittenOnlyByTheHost : Obligations.PortRegistersAreWrittenOnlyByTheHost := by
  intro s t hstep
  cases stepResult_of_step hstep with
  | resets h => exact .inl ⟨_, h⟩
  | executes _ _ _ _ hi =>
    obtain ⟨⟨hlen, hsrc, hdst, hklen⟩, -⟩ := hi.samePort
    exact .inr ⟨.inl hlen, .inl hsrc, .inl hdst, .inl hklen⟩
  | setsLen h => exact .inr ⟨.inr ⟨_, _, h, rfl⟩, .inl rfl, .inl rfl, .inl rfl⟩
  | setsSrc h => exact .inr ⟨.inl rfl, .inr ⟨_, _, h, rfl⟩, .inl rfl, .inl rfl⟩
  | setsDst h => exact .inr ⟨.inl rfl, .inl rfl, .inr ⟨_, _, h, rfl⟩, .inl rfl⟩
  | setsKlen h => exact .inr ⟨.inl rfl, .inl rfl, .inl rfl, .inr ⟨_, _, h, rfl⟩⟩
  | leavesError _ => simp
  | idle _ | stores _ | replies _ _ | ignores _ | rejects _ _ _ _ => exact .inr ⟨.inl rfl, .inl rfl, .inl rfl, .inl rfl⟩

/-- A cell stands in a range of words exactly when its word does. -/
theorem cell_mem_iff (a n c : Nat) : 16 * a ≤ c ∧ c < 16 * (a + n) ↔ a ≤ c / 16 ∧ c / 16 < a + n := by
  omega

/-- The commands that write words of the data memory, and the words. -/
theorem Instr.eq_of_destWords {s : State} {i : Instr} {a n : Nat} (h : i.destWords s = some (a, n)) :
    (∃ b addr, i = .stb b addr ∧ a = addr.toNat ∧ n = 1) ∨
      (∃ b, i = .duenc b ∨ i = .dudec b) ∧ a = s.dst.toNat ∧ n = (s.len.toNat + 127) / 128 := by
  cases i <;> cases h
  case stb b addr => exact .inl ⟨b, addr, rfl, rfl, rfl⟩
  case duenc b => exact .inr ⟨⟨b, .inl rfl⟩, rfl, rfl⟩
  case dudec b => exact .inr ⟨⟨b, .inr rfl⟩, rfl, rfl⟩

/-- Settles O51: a step that is no reset changes a cell only as a host write of its word or as a command
(`StepResult`), which changes cells of its destination words only (`CommandResult.dmemByte_eq`). -/
theorem dataMemoryIsWrittenOnlyByStores : Obligations.DataMemoryIsWrittenOnlyByStores := by
  intro s t c hstep hne
  cases stepResult_of_step hstep with
  | resets h => exact .inl ⟨_, h⟩
  | @stores a v rest h =>
    by_cases hc : 16 * a.toNat ≤ c ∧ c < 16 * (a.toNat + 1)
    · exact .inr (.inl ⟨_, _, _, h, by omega⟩)
    · exact absurd ((State.dmemByte_storeWord (s.taking rest) a.toNat v c).trans (if_neg hc)) hne
  | @executes w rest i _ h hf he hd hi =>
    refine .inr (.inr ⟨_, _, i, h, hd, ?_⟩)
    have hwords : ¬∀ a n, i.destWords (s.taking rest) = some (a, n) → ¬(16 * a ≤ c ∧ c < 16 * (a + n)) := fun hout =>
      hne (hi.dmemByte_eq hout)
    push Not at hwords
    obtain ⟨a, n, hdest, hlo, hhi⟩ := hwords
    rcases Instr.eq_of_destWords hdest with ⟨b, addr, hstb, rfl, rfl⟩ | ⟨hunit, rfl, rfl⟩
    · exact .inl ⟨b, addr, hstb, by omega⟩
    · exact .inr ⟨hunit, (cell_mem_iff _ _ c).mp ⟨hlo, hhi⟩⟩
  | leavesError _ => exact absurd (State.dmemByte_congr (by simp) (by simp) c) hne
  | idle _ | replies _ _ | ignores _ | setsLen _ | setsSrc _ | setsDst _ | setsKlen _ | rejects _ _ _ _ =>
    exact absurd rfl hne

/-- Settles O53: `step_params`, and the state in which an action happens has it off the queue. -/
theorem stepsKeepTheParametersAndTheQueue : Obligations.StepsKeepTheParametersAndTheQueue := by
  intro s t hstep
  refine ⟨step_params hstep, ?_⟩
  cases stepResult_of_step hstep with
  | idle h => rw [h]; rfl
  | executes h _ _ _ hi =>
    obtain ⟨-, -, hhost⟩ := hi.samePort
    rw [hhost, h]; rfl
  | leavesError h => rw [h, State.leaveError_host]; rfl
  | resets h | stores h | replies _ h | ignores h | setsLen h | setsSrc h | setsDst h | setsKlen h | rejects h _ _ _ =>
    rw [h]; rfl

/-! ## Steps that do not read the keys -/

/-- The state with other keys. -/
def State.withKeys (s : State) (a b : Key) : State := { s with k1 := a, k2 := b }

/-- Two next states that differ at most in K1 and K2. -/
def AlikeButKeys (o o' : Host.Outcome State Fault Refusal) : Prop :=
  ∃ t t', o = .next t ∧ o' = .next t' ∧ t'.withKeys t.k1 t.k2 = t

/-- An update that does not touch the keys. -/
theorem alikeButKeys_next {s : State} {a b : Key} : AlikeButKeys (.next s) (.next (s.withKeys a b)) :=
  ⟨_, _, rfl, rfl, rfl⟩

/-- A store of the same memory. -/
theorem alikeButKeys_mem {s : State} {a b : Key} (m : Memory) :
    AlikeButKeys (.next { s with mem := m }) (.next { s.withKeys a b with mem := m }) :=
  ⟨_, _, rfl, rfl, rfl⟩

theorem leaveError_withKeys (s : State) (a b : Key) : leaveError (s.withKeys a b) = (leaveError s).withKeys a b :=
  (apply_ite (fun t : State => t.withKeys a b) (s.fatal = true) s { s with errcode := 0#8, errcmd := 0#32 }).symm

/-- LDKEY checks and reads the same whatever the keys are, and overwrites them. -/
theorem execLdkey_alike (addr : WordAddr) (s : State) (a b : Key) :
    AlikeButKeys (execLdkey addr s) (execLdkey addr (s.withKeys a b)) := by
  rcases execLdkey_cases addr s with ⟨hk, h⟩ | ⟨hk, hr, h⟩ | ⟨hk, hr, h⟩ <;> rw [h]
  · rw [execLdkey_of_klen_ne (s := s.withKeys a b) hk]
    exact alikeButKeys_next
  · rw [execLdkey_of_range (s := s.withKeys a b) hk hr]
    exact alikeButKeys_next
  · rw [execLdkey_of_ready (s := s.withKeys a b) hk hr]
    exact ⟨_, _, rfl, rfl, rfl⟩

/-- A keyed command without a key raises the same error whatever the key registers hold. -/
theorem withKey_alike {w : Word} {s : State} {f : State → Host.Outcome State Fault Refusal} (hk : s.keyv = false)
    (a b : Key) : AlikeButKeys (withKey w s f) (withKey w (s.withKeys a b) f) := by
  rw [withKey_false hk, withKey_false (s := s.withKeys a b) hk]
  exact alikeButKeys_next

/-- A data-unit command without a key raises the same error whatever the key registers hold. -/
theorem dataUnitCommand_alike {w : Word} {s : State} {f g : DataUnit → DataUnit} (hk : s.keyv = false) (a b : Key) :
    AlikeButKeys (dataUnitCommand w f s) (dataUnitCommand w g (s.withKeys a b)) := by
  cases he : dataUnitError s with
  | none =>
    obtain ⟨-, hkey, -⟩ := (dataUnitError_eq_none s).mp he
    exact absurd (hk.symm.trans hkey) Bool.false_ne_true
  | some e =>
    rw [dataUnitCommand_of_error he, dataUnitCommand_of_error (s := s.withKeys a b) he]
    exact alikeButKeys_next

/-- A command that is not keyed, or any command without a key, does the same whatever the key registers hold. -/
theorem exec_alike (i : Instr) (s : State) (a b : Key)
    (h : s.keyv = true → i.mnemonic ∉ ["TWINIT", "XENC", "XDEC", "DUENC", "DUDEC"]) :
    AlikeButKeys (exec i s) (exec i (s.withKeys a b)) := by
  have hkey : i.mnemonic ∈ ["TWINIT", "XENC", "XDEC", "DUENC", "DUDEC"] → s.keyv = false := fun hi =>
    Bool.eq_false_iff.mpr fun hk => h hk hi
  cases i with
  | nop | gfmul _ _ _ | flip _ _ | twadv _ _ | twseek _ _ _ => exact alikeButKeys_next
  | clrerr =>
    rw [exec_clrerr, exec_clrerr, leaveError_withKeys]
    exact alikeButKeys_next
  | ldb bd addr =>
    simp only [exec, execLdb_eq]
    exact alikeButKeys_next
  | stb bs addr =>
    simp only [exec, execStb_eq]
    exact alikeButKeys_mem _
  | ldkey addr => exact execLdkey_alike addr s a b
  | twinit _ _ =>
    simp only [exec, execTwinit]
    exact withKey_alike (hkey (by simp [Instr.mnemonic])) a b
  | xenc _ _ _ =>
    simp only [exec, execXenc]
    exact withKey_alike (hkey (by simp [Instr.mnemonic])) a b
  | xdec _ _ _ =>
    simp only [exec, execXdec]
    exact withKey_alike (hkey (by simp [Instr.mnemonic])) a b
  | duenc _ => exact dataUnitCommand_alike (hkey (by simp [Instr.mnemonic])) a b
  | dudec _ => exact dataUnitCommand_alike (hkey (by simp [Instr.mnemonic])) a b

/-- The dispatch of a word that runs no keyed command past its key check. -/
theorem commandWrite_alike (w : Word) (s : State) (a b : Key)
    (h : ∀ i, decode w = .ok i → s.fatal = false → s.errcode = 0#8 → s.keyv = true →
      i.mnemonic ∉ ["TWINIT", "XENC", "XDEC", "DUENC", "DUDEC"]) :
    AlikeButKeys (commandWrite w s) (commandWrite w (s.withKeys a b)) := by
  rcases commandWrite_cases w s with ⟨hf | ⟨he, hw⟩, hc⟩ | ⟨hf, he, rfl, hc⟩ | ⟨hf, he, i, hd, hc⟩ |
    ⟨hf, he, e, hd, hc⟩ <;> rw [hc]
  · rw [commandWrite_fatal (s := s.withKeys a b) hf]
    exact alikeButKeys_next
  · rw [commandWrite_dropped (s := s.withKeys a b) he hw]
    exact alikeButKeys_next
  · rw [commandWrite_clrerr (s := s.withKeys a b) he, leaveError_withKeys]
    exact alikeButKeys_next
  · rw [commandWrite_decoded (s := s.withKeys a b) hf he hd]
    exact exec_alike i s a b (h i hd hf he)
  · rw [commandWrite_illegal (s := s.withKeys a b) hf he hd]
    exact alikeButKeys_next

/-- No register of the port shows a key. -/
theorem portRead_withKeys (o : PortOffset) (s : State) (a b : Key) : portRead o (s.withKeys a b) = portRead o s := by
  simp only [portRead]
  cases portReg o <;> rfl

/-- A write to the register port: CMD is the dispatch, any other offset does not touch the keys. -/
theorem portWrite_alike (o : PortOffset) (v : Word) (s : State) (a b : Key)
    (h : o = PortName.cmd.offset → AlikeButKeys (commandWrite v s) (commandWrite v (s.withKeys a b))) :
    AlikeButKeys (portWrite o v s) (portWrite o v (s.withKeys a b)) := by
  rcases portReg_cases o with ⟨n, rfl⟩ | ⟨-, hempty⟩
  · cases n with
    | cmd => exact h rfl
    | len | src | dst | klen | status | errcmd | config => exact alikeButKeys_next
  · rw [portWrite_empty hempty, portWrite_empty hempty]
    exact alikeButKeys_next

/-- Settles O52: every action but a write to CMD is an update that does not read the keys, and a write to CMD is the
dispatch (`commandWrite_alike`). -/
theorem stepsThatRunNoKeyedCommandDoNotReadTheKeys : Obligations.StepsThatRunNoKeyedCommandDoNotReadTheKeys := by
  intro s a b hno
  change AlikeButKeys (step s) (step (s.withKeys a b))
  rcases step_cases s with ⟨h, hs⟩ | ⟨act, rest, h, hs⟩
  · rw [hs, step_idle (s := s.withKeys a b) h]
    exact alikeButKeys_next
  rw [hs, step_act (s := s.withKeys a b) h]
  cases act with
  | regWrite o v =>
    refine portWrite_alike o v (s.taking rest) a b fun ho => ?_
    subst ho
    exact commandWrite_alike v (s.taking rest) a b fun i hd => hno v rest i h hd
  | regRead o =>
    exact ⟨_, _, rfl, rfl, congrArg (fun v => { s.taking rest with reply := .reg v })
      (portRead_withKeys o (s.taking rest) a b)⟩
  | memWrite addr v =>
    rw [hostAct_memWrite, hostAct_memWrite]
    exact alikeButKeys_mem _
  | memRead addr =>
    rw [hostAct_memRead, hostAct_memRead]
    exact alikeButKeys_next (s := { s.taking rest with reply := .mem (s.dmemWord addr.toNat) })
  | reset => exact ⟨_, _, rfl, rfl, rfl⟩

end Sys2Proof.Machine
end

section
/-! PROOF. The field (40_field_arithmetic.md R94, R96): `multiply` is the one remainder of the product, a product is
zero only when a factor is, and the order of alpha. -/

namespace Sys2Proof.Machine

open Sys2Proof.Safety

/-- Settles O29: `poly_multiply`, and a block is fixed by its polynomial. -/
theorem multiplyIsTheRemainderOfTheProduct : Obligations.MultiplyIsTheRemainderOfTheProduct := by
  intro a b c
  constructor
  · rintro rfl
    exact poly_multiply a b
  · intro h
    exact poly_injective ((poly_multiply a b).trans h.symm)

/-- No power of alpha is zero: the powers repeat with the order of alpha. -/
theorem alphaPow_ne_zero_of_nat (i : Nat) : alphaPow i ≠ 0#128 := by
  rw [(alphaPow_eq_iff i (i % (2 ^ 128 - 1))).mpr (Nat.mod_modEq i _).symm]
  exact alphaPow_ne_zero (Nat.mod_lt i (by norm_num))

/-- Settles O31: factors that are not zero are powers of alpha (`exists_alphaPow`), and so is their product, which is
then not zero; the order is `orderOf_residue_alpha`. -/
theorem fieldHasNoZeroDivisorsAndAlphaIsPrimitive : Obligations.FieldHasNoZeroDivisorsAndAlphaIsPrimitive := by
  refine ⟨fun a b h => ?_, fun i => ?_⟩
  · by_contra! hne
    obtain ⟨i, rfl⟩ := exists_alphaPow hne.1
    obtain ⟨j, rfl⟩ := exists_alphaPow hne.2
    exact alphaPow_ne_zero_of_nat (i + j) (multiply_alphaPow i j ▸ h)
  · rw [alphaPow_eq_one_iff, ← orderOf_dvd_iff_pow_eq_one, orderOf_residue_alpha]

end Sys2Proof.Machine
end

section
/-! PROOF. The data-unit commands on the data memory (43_data_unit_codec.md): the unit that is read and the words that
are written, word by word, and encrypting then decrypting in place. -/

namespace Sys2Proof.Machine

open Sys2Proof.Safety

/-! ## The unit in the data memory (R142, R146) -/

/-- The data unit at SRC. -/
def State.unit (s : State) : DataUnit := DataUnit.ofWords s.unitBits (s.wordsAt s.sourceAddress s.unitBlocks)

/-- A range of words, and a longer one that begins with it. -/
theorem State.take_wordsAt (s : State) (a : Nat) {m n : Nat} (h : m ≤ n) :
    (s.wordsAt a n).take m = s.wordsAt a m := by
  rw [State.wordsAt, ← List.map_take, List.take_range, Nat.min_eq_left h, State.wordsAt]

theorem State.wordsAt_succ (s : State) (a n : Nat) : s.wordsAt a (n + 1) = s.wordsAt a n ++ [s.dmemWord (a + n)] := by
  rw [State.wordsAt, List.range_succ, List.map_append, State.wordsAt]
  rfl

/-- No bits of a block. -/
theorem leading_zero_bits (x : Block) : leading 0 x = 0#128 := by
  refine BitVec.eq_of_getLsbD_eq fun i hi => ?_
  have hnone : ¬128 - 0 ≤ i := Nat.not_le.mpr hi
  rw [leading_getLsbD 0 x i (by omega) hi, decide_eq_false hnone, Bool.false_and, BitVec.getLsbD_zero]

/-- What a unit written to the data memory reads back as. -/
theorem DataUnit.ofWords_toWords {u : DataUnit} (hr : u.r < 128) (hpart : leading u.r u.part = u.part) :
    DataUnit.ofWords u.bits u.toWords = u := by
  obtain ⟨full, r, part⟩ := u
  replace hr : r < 128 := hr
  have hdiv : (128 * full.length + r) / 128 = full.length := by omega
  have hmod : (128 * full.length + r) % 128 = r := by omega
  simp only [DataUnit.ofWords, DataUnit.bits, DataUnit.toWords, hdiv, hmod] at hpart ⊢
  by_cases h0 : r = 0
  · subst h0
    rw [leading_zero_bits] at hpart
    simp [leading_zero_bits, hpart]
  · rw [hpart]
    simp [h0, hpart]

section

variable {s : State} (h : UnitReady s)
include h

/-- The count of words of a unit that passes the checks. -/
theorem unitReady_counts : 1 ≤ s.unitBits / 128 ∧
    s.unitBlocks = s.unitBits / 128 + (if s.unitBits % 128 = 0 then 0 else 1) := by
  obtain ⟨⟨hlen, -⟩, -⟩ := h
  exact ⟨by omega, ceilDiv128_eq _⟩

/-- The full blocks of the unit are the first words at SRC. -/
theorem unit_full : s.unit.full = s.wordsAt s.sourceAddress (s.unitBits / 128) := by
  obtain ⟨-, hblocks⟩ := unitReady_counts h
  exact s.take_wordsAt _ (by omega)

theorem unit_full_length : s.unit.full.length = s.unitBits / 128 := by
  rw [unit_full h, State.wordsAt_length]

/-- The unit has LEN bits. -/
theorem unit_bits : s.unit.bits = s.unitBits := by
  rw [DataUnit.bits, unit_full_length h]
  exact Nat.div_add_mod _ _

/-- The unit has a full block, and nothing behind the bits of its partial block. -/
theorem unit_canonical : 1 ≤ s.unit.full.length ∧ s.unit.r < 128 ∧ leading s.unit.r s.unit.part = s.unit.part := by
  have hr : s.unit.r < 128 := Nat.mod_lt _ (by norm_num)
  exact ⟨unit_full_length h ▸ (unitReady_counts h).1, hr, leading_leading _ _ hr.le⟩

/-- A unit without a partial block. -/
theorem unit_whole (hr : s.unitBits % 128 = 0) :
    ∃ part, s.unit = ⟨s.wordsAt s.sourceAddress (s.unitBits / 128), 0, part⟩ := by
  rw [← unit_full h, ← hr]
  exact ⟨_, rfl⟩

/-- The partial block is the word behind the full ones, as far as it belongs to the unit. -/
theorem unit_part (hr : s.unitBits % 128 ≠ 0) :
    s.unit.part = leading (s.unitBits % 128) (s.dmemWord (s.sourceAddress + s.unitBits / 128)) := by
  obtain ⟨-, hblocks⟩ := unitReady_counts h
  rw [if_neg hr] at hblocks
  have hin : s.unitBits / 128 < (s.wordsAt s.sourceAddress s.unitBlocks).length := by
    rw [State.wordsAt_length]
    omega
  rw [← State.wordsAt_getElem s _ _ hin, ← List.getD_eq_getElem _ 0#128 hin]
  rfl

/-- A unit with a partial block, its last full block named. -/
theorem unit_stealing (hr : s.unitBits % 128 ≠ 0) :
    s.unit = ⟨s.wordsAt s.sourceAddress (s.unitBits / 128 - 1) ++
        [s.dmemWord (s.sourceAddress + (s.unitBits / 128 - 1))],
      s.unitBits % 128, leading (s.unitBits % 128) (s.dmemWord (s.sourceAddress + s.unitBits / 128))⟩ := by
  obtain ⟨hfull, -⟩ := unitReady_counts h
  rw [← State.wordsAt_succ, Nat.sub_add_cancel hfull, ← unit_full h, ← unit_part h hr]
  rfl

/-- The words of the unit at SRC: the full ones, and what belongs to it of the word behind them. -/
theorem unit_toWords : s.unit.toWords = s.wordsAt s.sourceAddress (s.unitBits / 128) ++
    if s.unitBits % 128 = 0 then []
    else [leading (s.unitBits % 128) (s.dmemWord (s.sourceAddress + s.unitBits / 128))] := by
  have hr' : s.unitBits % 128 ≤ 128 := (Nat.mod_lt _ (by norm_num)).le
  have hwords : s.unit.toWords = if s.unitBits % 128 = 0 then s.unit.full
    else s.unit.full ++ [leading (s.unitBits % 128) s.unit.part] := rfl
  rw [hwords, unit_full h]
  split_ifs with hr
  · exact (List.append_nil _).symm
  · rw [unit_part h hr, leading_leading _ _ hr']

/-! ## What a data-unit command writes -/

/-- A data-unit command whose checks all pass writes the words of the function's answer, and nothing else. -/
theorem dataUnitCommand_writes (w : Word) {f : DataUnit → DataUnit} (hf : KeepsLength f) :
    ∃ t, dataUnitCommand w f s = .next t ∧ OnlyWords s.destAddress s.unitBlocks s t ∧
      t.wordsAt s.destAddress s.unitBlocks = (f s.unit).toWords := by
  have hlen : (f s.unit).toWords.length = s.unitBlocks := hf.toWords_length h.1.1 (s.wordsAt_length _ _)
  obtain ⟨t, ht, hw⟩ := dataUnitCommand_of_ready w f s h hlen
  have honly := OnlyWords_writeRange hw
  obtain ⟨-, -, -, hin, -⟩ := State.writeRange_cases hw
  refine ⟨t, ht, hlen ▸ honly, List.ext_getElem (by rw [State.wordsAt_length]; exact hlen.symm) fun j hj hj' => ?_⟩
  rw [State.wordsAt_getElem]
  exact hin j hj'

end

/-- A word of a range, from the list of its words. -/
theorem dmemWord_of_wordsAt {t : State} {a n : Nat} {ws : List Block} (h : t.wordsAt a n = ws) {i : Nat}
    (hi : i < ws.length) : t.dmemWord (a + i) = ws[i] := by
  subst h
  rw [State.wordsAt_getElem]

/-- A range that holds the unit at SRC holds its full words and what belongs to it of the word behind them. -/
theorem words_unit {s v : State} {a n : Nat} (h : UnitReady s) (hwords : v.wordsAt a n = s.unit.toWords) :
    (∀ j, j < s.unitBits / 128 → v.dmemWord (a + j) = s.dmemWord (s.sourceAddress + j)) ∧
      (s.unitBits % 128 ≠ 0 → v.dmemWord (a + s.unitBits / 128) =
        leading (s.unitBits % 128) (s.dmemWord (s.sourceAddress + s.unitBits / 128))) := by
  rw [unit_toWords h] at hwords
  refine ⟨fun j hj => ?_, fun hr => ?_⟩
  · have hin : j < (s.wordsAt s.sourceAddress (s.unitBits / 128)).length := by rwa [State.wordsAt_length]
    rw [dmemWord_of_wordsAt hwords (by rw [List.length_append]; omega), List.getElem_append_left hin,
      State.wordsAt_getElem]
  · rw [if_neg hr] at hwords
    rw [dmemWord_of_wordsAt hwords (by simp)]
    simp

/-! ## The words of DUENC and DUDEC (R137 to R140) -/

/-- The words of a whole unit: each block under its own tweak. -/
theorem words_whole {s t : State} {sa da m n : Nat} {f : Block → Block → Block} {t0 part : Block}
    (h : t.wordsAt da n = DataUnit.toWords ⟨underTweaks f t0 (s.wordsAt sa m), 0, part⟩) {i : Nat} (hi : i < m) :
    t.dmemWord (da + i) = f (tweakAfter t0 i) (s.dmemWord (sa + i)) := by
  rw [DataUnit.toWords, if_pos rfl] at h
  have hlen : i < (underTweaks f t0 (s.wordsAt sa m)).length := by simpa using hi
  rw [dmemWord_of_wordsAt h hlen, underTweaks_getElem f t0 _ i (by simpa using hi), State.wordsAt_getElem]

/-- The words of a unit of `m + 1` full blocks and a partial one: the blocks in front under their tweaks, then the
combined block `z`, then the leading bits of the block `y` that lent its last ones. -/
theorem words_stealing {s t : State} {sa da m n r : Nat} {f : Block → Block → Block} {t0 y z : Block} (hr : r ≠ 0)
    (hr' : r < 128)
    (h : t.wordsAt da n = DataUnit.toWords ⟨underTweaks f t0 (s.wordsAt sa m) ++ [z], r, leading r y⟩) :
    (∀ i, i < m → t.dmemWord (da + i) = f (tweakAfter t0 i) (s.dmemWord (sa + i))) ∧
      t.dmemWord (da + m) = z ∧ t.dmemWord (da + (m + 1)) = leading r y := by
  rw [DataUnit.toWords, if_neg hr, leading_leading r y hr'.le] at h
  refine ⟨fun i hi => ?_, ?_, ?_⟩
  · have hfront : i < (underTweaks f t0 (s.wordsAt sa m)).length := by simpa using hi
    rw [dmemWord_of_wordsAt h (by simp; omega), List.getElem_append_left (by simp; omega),
      List.getElem_append_left hfront, underTweaks_getElem f t0 _ i (by simpa using hi), State.wordsAt_getElem]
  · rw [dmemWord_of_wordsAt h (by simp)]
    simp
  · rw [dmemWord_of_wordsAt h (by simp)]
    simp

/-- The first bits of the partial block in front of the last bits of another, bit by bit. -/
theorem splice_leading_getLsbD {r b : Nat} (hr : r ≤ 128) (hb : b < 128) (x y : Block) :
    (splice r (leading r x) y).getLsbD b = if 128 - r ≤ b then x.getLsbD b else y.getLsbD b := by
  rw [splice_getLsbD r _ y b hr hb, leading_getLsbD r x b hr hb]
  by_cases h : 128 - r ≤ b
  · simp [h, Nat.not_lt.mpr h]
  · simp [h, Nat.lt_of_not_le h]

/-- The words that a data-unit command writes, as R137 to R140 write them, for a function that puts the blocks of a
whole unit each under its own tweak and, of a unit of `M` full blocks and a partial one, the last full block under `ta`
first and the combined block under `tb`. -/
theorem dataUnitCommand_words {s : State} (h : UnitReady s) (w : Word) {g : DataUnit → DataUnit}
    {f : Block → Block → Block} {t0 ta tb : Block} (hg : KeepsLength g)
    (hwhole : ∀ xs part, g ⟨xs, 0, part⟩ = ⟨underTweaks f t0 xs, 0, part⟩)
    (hstealing : ∀ xs x part r, r ≠ 0 → xs.length + 1 = s.unitBits / 128 →
      g ⟨xs ++ [x], r, part⟩ = ⟨underTweaks f t0 xs ++ [f tb (splice r part (f ta x))], r, leading r (f ta x)⟩) :
    ∃ t, dataUnitCommand w g s = .next t ∧ OnlyWords s.destAddress s.unitBlocks s t ∧
      let W (j : Nat) : Block := s.dmemWord (s.sourceAddress + j)
      let Y (j : Nat) : Block := t.dmemWord (s.destAddress + j)
      let M : Nat := s.unitBits / 128
      let r : Nat := s.unitBits % 128
      if r = 0 then ∀ i, i < M → Y i = f (tweakAfter t0 i) (W i)
      else
        (∀ i, i + 1 < M → Y i = f (tweakAfter t0 i) (W i)) ∧
        ∃ z : Block,
          (∀ b, b < 128 → z.getLsbD b =
            if 128 - r ≤ b then (W M).getLsbD b else (f ta (W (M - 1))).getLsbD b) ∧
          Y (M - 1) = f tb z ∧
          ∀ b, b < 128 → (Y M).getLsbD b = (decide (128 - r ≤ b) && (f ta (W (M - 1))).getLsbD b) := by
  obtain ⟨t, ht, honly, hwords⟩ := dataUnitCommand_writes h w hg
  obtain ⟨hfull, -⟩ := unitReady_counts h
  refine ⟨t, ht, honly, ?_⟩
  by_cases hr : s.unitBits % 128 = 0
  · obtain ⟨part, hunit⟩ := unit_whole h hr
    rw [hunit, hwhole] at hwords
    exact (if_pos hr).mpr fun i hi => words_whole hwords hi
  · have hr' : s.unitBits % 128 < 128 := Nat.mod_lt _ (by norm_num)
    rw [unit_stealing h hr, hstealing _ _ _ _ hr (by rw [State.wordsAt_length, Nat.sub_add_cancel hfull])] at hwords
    obtain ⟨hfront, hcombined, hlast⟩ := words_stealing hr hr' hwords
    rw [Nat.sub_add_cancel hfull] at hlast
    refine (if_neg hr).mpr ⟨fun i hi => hfront i (Nat.lt_sub_of_add_lt hi), _,
      fun b hb => splice_leading_getLsbD hr'.le hb _ _, hcombined, fun b hb => ?_⟩
    exact (congrArg (fun x : Block => x.getLsbD b) hlast).trans (leading_getLsbD _ _ b hr'.le hb)

/-- Settles O40: `xtsEncrypt` puts the last full block under tweak `M - 1` and the combined block under tweak `M`. -/
theorem duencEncryptsTheDataUnit : Obligations.DuencEncryptsTheDataUnit := fun ba s h =>
  dataUnitCommand_words h (encode (.duenc ba)) (keepsLength_xtsEncrypt Config.cipher s.k1 s.k2 (s.readB ba))
    (xtsEncrypt_whole _ _ _ _) fun xs x part _ hr hM => hM ▸ xtsEncrypt_stealing _ _ _ _ xs x part hr

/-- Settles O41: `xtsDecrypt` puts the last full block under tweak `M` and the combined block under tweak `M - 1`. -/
theorem dudecDecryptsTheDataUnit : Obligations.DudecDecryptsTheDataUnit := fun ba s h =>
  dataUnitCommand_words h (encode (.dudec ba)) (keepsLength_xtsDecrypt Config.cipher s.k1 s.k2 (s.readB ba))
    (xtsDecrypt_whole _ _ _ _) fun xs x part _ hr hM => hM ▸ xtsDecrypt_stealing _ _ _ _ xs x part hr

/-! ## Encrypting and decrypting in place (R145, R147, R152) -/

/-- The partial block of an encrypted unit has nothing behind its bits either. -/
theorem leading_part_xtsEncrypt (c : Cipher) (key1 key2 : Key) (seq : Block) {u : DataUnit}
    (hfull : 1 ≤ u.full.length) (hr : u.r < 128) (hpart : leading u.r u.part = u.part) :
    leading (xtsEncrypt c key1 key2 seq u).r (xtsEncrypt c key1 key2 seq u).part =
      (xtsEncrypt c key1 key2 seq u).part := by
  rcases u.whole_or_stealing hfull with ⟨xs, part, rfl⟩ | ⟨xs, x, r, part, h0, rfl⟩
  · exact hpart
  · rw [xtsEncrypt_stealing c key1 key2 seq xs x part h0]
    exact leading_leading r _ hr.le

/-- Once a command has been ready, it is ready for the unit at the destination, in place. -/
theorem unitReady_inPlace {s t : State} (h : UnitReady s) (hlen : t.len = s.len) (hkey : t.keyv = s.keyv)
    (hdst : t.dst = s.dst) : UnitReady { t with src := s.dst } := by
  obtain ⟨hvalid, hkeyv, ⟨-, hrange⟩, -⟩ := h
  have hready : ValidLength t ∧ t.destAddress + t.unitBlocks ≤ 2 ^ 21 := by
    simp only [ValidLength, State.destAddress, State.unitBlocks, State.unitBits, hlen, hdst]
    exact ⟨hvalid, hrange⟩
  have hsource : s.destAddress + t.unitBlocks ≤ 2 ^ 21 := by
    simp only [State.unitBlocks, State.unitBits, hlen]
    exact hrange
  exact ⟨hready.1, hkey.trans hkeyv, ⟨hsource, hready.2⟩, .inl (congrArg BitVec.toNat hdst.symm)⟩

/-- The encrypted unit reads back from the destination as it was written. -/
theorem unit_inPlace {c : Cipher} {key1 key2 : Key} {seq : Block} {s t : State} (h : UnitReady s)
    (hlen : t.len = s.len)
    (hwords : t.wordsAt s.destAddress s.unitBlocks = (xtsEncrypt c key1 key2 seq s.unit).toWords) :
    State.unit { t with src := s.dst } = xtsEncrypt c key1 key2 seq s.unit := by
  have henc := keepsLength_xtsEncrypt c key1 key2 seq
  obtain ⟨hfull, hr, hpart⟩ := unit_canonical h
  obtain ⟨-, hr'⟩ := henc s.unit hfull
  have hread : State.unit { t with src := s.dst } =
      DataUnit.ofWords t.unitBits (t.wordsAt s.destAddress t.unitBlocks) := rfl
  have hbits : t.unitBits = s.unitBits := congrArg BitVec.toNat hlen
  rw [hread, State.unitBlocks, hbits, ← State.unitBlocks, hwords, ← unit_bits h, ← henc.bits hfull]
  exact DataUnit.ofWords_toWords (hr'.symm ▸ hr) (leading_part_xtsEncrypt c key1 key2 seq hfull hr hpart)

/-- Settles O45: the encrypted unit reads back from the destination as it was written (`unit_inPlace`), so that
decrypting it gives the unit back (`decryptUndoesEncrypt`), whose words are then written (`words_unit`). -/
theorem dataUnitCommandsRoundTrip : Obligations.DataUnitCommandsRoundTrip := by
  intro c hc key1 key2 seq w w' s h
  obtain ⟨hfull, hr, hpart⟩ := unit_canonical h
  obtain ⟨t, ht, ⟨-, ⟨-, -, hkeyv⟩, -, ⟨hlen, -, hdst, -⟩, -, -⟩, hwords⟩ :=
    dataUnitCommand_writes h w (keepsLength_xtsEncrypt c key1 key2 seq)
  obtain ⟨v, hv, -, hwords'⟩ := dataUnitCommand_writes (unitReady_inPlace h hlen hkeyv hdst) w'
    (keepsLength_xtsDecrypt c key1 key2 seq)
  have hdest : State.destAddress { t with src := s.dst } = s.destAddress := congrArg BitVec.toNat hdst
  rw [unit_inPlace h hlen hwords, decryptUndoesEncrypt c hc key1 key2 seq s.unit hfull hr hpart, hdest] at hwords'
  obtain ⟨hfront, hlast⟩ := words_unit h hwords'
  refine ⟨t, v, ht, hv, hfront, fun hr0 b hb => ?_⟩
  exact (congrArg (fun x : Block => x.getLsbD b) (hlast hr0)).trans (leading_getLsbD _ _ b hr.le hb)

end Sys2Proof.Machine
end
